-- ==== Sys2Proof/Word.lean ====
section
/-! DEFINITION. The word types of the core (rules R10, R12 of 00_scope.md, R72 of 30_encoding.md). Every value of this
hardware is unsigned (rule R12), so a bit vector is all a word needs. -/

namespace Sys2Proof

/-- One byte: a general register, a timer, a memory cell, an immediate `kk` (rules R10, R72). -/
abbrev Byte := BitVec 8

/-- Sixteen bits: `pc`, `I` and a stack entry (rule R10). -/
abbrev Word := BitVec 16

/-- The raw 16-bit instruction word (rules R16, R70). -/
abbrev Opcode := BitVec 16

/-- A 4-bit field of an opcode: a register index `x` or `y`, or the immediate `n` (rule R72). -/
abbrev Nibble := BitVec 4

/-- A 4-bit register index 0..15 that names V[x] (rules R15, R72). -/
abbrev RegIdx := BitVec 4

/-- The 12-bit address `nnn` (rules R10, R72). -/
abbrev Addr12 := BitVec 12

end Sys2Proof
end

