-- ==== Sys2Proof/Config.lean ====
section
/-! DEFINITION. What is fixed for a machine: the sizes of rule R10 (00_scope.md), the parameters of rule R11 as the
structure `Config`, and the one free value, the random source's bytes. -/

namespace Sys2Proof.Config

/-- MEM_SIZE: addresses 0..4095 exist (rules R10, R50). -/
abbrev memSize : Nat := 4096

/-- PROG_BASE: the load offset, the initial pc and the entry point (rules R10, R51). -/
abbrev progBase : Nat := 512

/-- MAX_PROGRAM = 4096 - 512 bytes (rules R10, R65). -/
abbrev maxProgram : Nat := 3584

/-- FETCH_LIMIT: the largest pc that can be fetched (rules R10, R101). -/
abbrev fetchLimit : Nat := 4094

/-- RAND (rules R11, R149, R208; U1): the byte that the random source answers at its `k`-th draw. A FREE VALUE: it has
no body, so nothing can be proved of it (log entry 2). -/
opaque randomByte : Nat → Byte

end Sys2Proof.Config

namespace Sys2Proof

/-- DECODER_STRATEGY of rule R11: which decoder a machine was built with (rule R82). -/
inductive DecoderStrategy where
  | mask
  | table
  deriving DecidableEq, Repr

/-- TIMER_ENV of rule R11: what the host may do to the timers between steps (rule R206). -/
inductive TimerEnv where
  | none
  | decrement
  | arbitrary
  deriving DecidableEq, Repr

/-- The parameters of rule R11, fixed for the life of a machine. RAND, the fourth, is `Config.randomByte`. -/
structure Config where
  decoderStrategy : DecoderStrategy
  timerEnv : TimerEnv
  /-- UNIMPL_AS_DECODE_FAULT: the eleven unimplemented patterns are unrecognized words (rule R86). -/
  unimplAsDecodeFault : Bool
  deriving DecidableEq, Repr

/-- The configuration of the machine `Machine.step`: the defaults that rule R11 names. Rule R11 names no default for
the decoder strategy; mask is a DESIGN CHOICE without observable effect (rule R81; log entry 3). -/
def Config.standard : Config :=
  { decoderStrategy := .mask, timerEnv := .decrement, unimplAsDecodeFault := false }

end Sys2Proof
end

