-- ==== Sys2Proof/Syntax.lean ====
section
/-! DEFINITION. The Instruction value (rule R74 of 30_encoding.md): a closed tagged-variant value, one constructor per
row of the opcode map (rule R75) and of opcode_table.json, in their order, each with the row's operand fields. -/

namespace Sys2Proof

/-- The 35 variants of rule R75. Register indices `x`, `y`, the immediate byte `kk`, the 12-bit address `nnn` and the
nibble `n` are the operand fields of rule R15. Two values are equal when variant and fields are (rule R74). -/
inductive Instr where
  | clearScreen
  | ret
  | systemCall (nnn : Addr12)
  | jump (nnn : Addr12)
  | call (nnn : Addr12)
  | skipIfEqualByte (x : RegIdx) (kk : Byte)
  | skipIfNotEqualByte (x : RegIdx) (kk : Byte)
  | skipIfRegistersEqual (x y : RegIdx)
  | loadByte (x : RegIdx) (kk : Byte)
  | addByte (x : RegIdx) (kk : Byte)
  | loadRegister (x y : RegIdx)
  | orRegister (x y : RegIdx)
  | andRegister (x y : RegIdx)
  | xorRegister (x y : RegIdx)
  | addRegister (x y : RegIdx)
  | subtractRegister (x y : RegIdx)
  | shiftRight (x y : RegIdx)
  | subtractReverse (x y : RegIdx)
  | shiftLeft (x y : RegIdx)
  | skipIfRegistersNotEqual (x y : RegIdx)
  | loadImmediate (nnn : Addr12)
  | jumpOffset (nnn : Addr12)
  | random (x : RegIdx) (kk : Byte)
  | draw (x y : RegIdx) (n : Nibble)
  | skipIfKey (x : RegIdx)
  | skipIfNotKey (x : RegIdx)
  | readDelay (x : RegIdx)
  | waitKey (x : RegIdx)
  /-- `x` is the literal value to store, not a register index (rules R72, R162). -/
  | writeDelay (x : Nibble)
  /-- `x` is the literal value to store, not a register index (rules R72, R163). -/
  | writeSound (x : Nibble)
  | addToAddress (x : RegIdx)
  | loadFontAddress (x : RegIdx)
  | storeBCD (x : RegIdx)
  /-- `x` is "upto", the last register stored (rules R72, R166). -/
  | storeRegisters (x : RegIdx)
  /-- `x` is "upto", the last register loaded (rules R72, R167). -/
  | loadRegisters (x : RegIdx)
  deriving DecidableEq, Repr

end Sys2Proof
end

