-- ==== Sys2Proof/WellFormed.lean ====
section
/-! DEFINITION. Which Instruction values have an encoding. The operand types already bound every field (rule R72); the
one check left is rule R78's: 0x00E0 and 0x00EE are clear-screen and return, so system-call has every other `nnn`. -/

namespace Sys2Proof

/-- `i` is the decoding of some opcode (rules R75, R76, R78). -/
def Instr.wf (i : Instr) : Bool :=
  match i with
  | .systemCall nnn => nnn != 0x0E0#12 && nnn != 0x0EE#12
  | .clearScreen => true
  | .ret => true
  | .jump _ => true
  | .call _ => true
  | .skipIfEqualByte _ _ => true
  | .skipIfNotEqualByte _ _ => true
  | .skipIfRegistersEqual _ _ => true
  | .loadByte _ _ => true
  | .addByte _ _ => true
  | .loadRegister _ _ => true
  | .orRegister _ _ => true
  | .andRegister _ _ => true
  | .xorRegister _ _ => true
  | .addRegister _ _ => true
  | .subtractRegister _ _ => true
  | .shiftRight _ _ => true
  | .subtractReverse _ _ => true
  | .shiftLeft _ _ => true
  | .skipIfRegistersNotEqual _ _ => true
  | .loadImmediate _ => true
  | .jumpOffset _ => true
  | .random _ _ => true
  | .draw _ _ _ => true
  | .skipIfKey _ => true
  | .skipIfNotKey _ => true
  | .readDelay _ => true
  | .waitKey _ => true
  | .writeDelay _ => true
  | .writeSound _ => true
  | .addToAddress _ => true
  | .loadFontAddress _ => true
  | .storeBCD _ => true
  | .storeRegisters _ => true
  | .loadRegisters _ => true

end Sys2Proof
end

