-- ==== Sys2Proof/Decode.lean ====
section
/-! DEFINITION. The opcode_decoder (30_encoding.md): the fields of an opcode (rule R71), the mask-matching decoder (rules
R77, R78), the table-lookup decoder (rules R79, R80), the choice between them (rule R82), decoding from bytes (rules
R56, R70), and the encoder. The bit patterns are the conventional ones, supplied by the spec from general knowledge
(log entry 5). -/

namespace Sys2Proof

/-! ### Fields (rule R71) -/

/-- op[15:12], the highest nibble: the first-level dispatch key. -/
def highNibble (op : Opcode) : Nibble := op.extractLsb' 12 4

/-- x = op[11:8]. -/
def xField (op : Opcode) : RegIdx := op.extractLsb' 8 4

/-- y = op[7:4]. -/
def yField (op : Opcode) : RegIdx := op.extractLsb' 4 4

/-- n = op[3:0], also the lowest nibble as a second-level key. -/
def nField (op : Opcode) : Nibble := op.extractLsb' 0 4

/-- kk = op[7:0], also the lowest byte as a second-level key. -/
def kkField (op : Opcode) : Byte := op.extractLsb' 0 8

/-- nnn = op[11:0]. -/
def nnnField (op : Opcode) : Addr12 := op.extractLsb' 0 12

/-! ### Which variants the engine executes (rule R75, column "exec"; rule R85) -/

/-- The engine gives the variant semantics: true of 24 variants, false of the eleven of rule R85. -/
def Instr.executed (i : Instr) : Bool :=
  match i with
  | .subtractRegister _ _ => false
  | .shiftRight _ _ => false
  | .subtractReverse _ _ => false
  | .shiftLeft _ _ => false
  | .skipIfRegistersNotEqual _ _ => false
  | .jumpOffset _ => false
  | .draw _ _ _ => false
  | .skipIfKey _ => false
  | .skipIfNotKey _ => false
  | .waitKey _ => false
  | .loadFontAddress _ => false
  | .clearScreen => true
  | .ret => true
  | .systemCall _ => true
  | .jump _ => true
  | .call _ => true
  | .skipIfEqualByte _ _ => true
  | .skipIfNotEqualByte _ _ => true
  | .skipIfRegistersEqual _ _ => true
  | .loadByte _ _ => true
  | .addByte _ _ => true
  | .loadRegister _ _ => true
  | .orRegister _ _ => true
  | .andRegister _ _ => true
  | .xorRegister _ _ => true
  | .addRegister _ _ => true
  | .loadImmediate _ => true
  | .random _ _ => true
  | .readDelay _ => true
  | .writeDelay _ => true
  | .writeSound _ => true
  | .addToAddress _ => true
  | .storeBCD _ => true
  | .storeRegisters _ => true
  | .loadRegisters _ => true

/-! ### The mask-matching decoder (rules R77, R78) -/

/-- One row of the opcode map (rule R75). `build` extracts the operand fields. -/
structure OpRow where
  mask : Opcode
  pattern : Opcode
  executed : Bool
  build : Opcode → Instr

/-- Group 1 of rule R78: mask FFFF. -/
def rowsFFFF : List OpRow :=
  [ ⟨0xFFFF, 0x00E0, true, fun _ => .clearScreen⟩,
    ⟨0xFFFF, 0x00EE, true, fun _ => .ret⟩ ]

/-- Group 2 of rule R78: mask F0FF. -/
def rowsF0FF : List OpRow :=
  [ ⟨0xF0FF, 0xE09E, false, fun op => .skipIfKey (xField op)⟩,
    ⟨0xF0FF, 0xE0A1, false, fun op => .skipIfNotKey (xField op)⟩,
    ⟨0xF0FF, 0xF007, true, fun op => .readDelay (xField op)⟩,
    ⟨0xF0FF, 0xF00A, false, fun op => .waitKey (xField op)⟩,
    ⟨0xF0FF, 0xF015, true, fun op => .writeDelay (xField op)⟩,
    ⟨0xF0FF, 0xF018, true, fun op => .writeSound (xField op)⟩,
    ⟨0xF0FF, 0xF01E, true, fun op => .addToAddress (xField op)⟩,
    ⟨0xF0FF, 0xF029, false, fun op => .loadFontAddress (xField op)⟩,
    ⟨0xF0FF, 0xF033, true, fun op => .storeBCD (xField op)⟩,
    ⟨0xF0FF, 0xF055, true, fun op => .storeRegisters (xField op)⟩,
    ⟨0xF0FF, 0xF065, true, fun op => .loadRegisters (xField op)⟩ ]

/-- Group 3 of rule R78: mask F00F. -/
def rowsF00F : List OpRow :=
  [ ⟨0xF00F, 0x5000, true, fun op => .skipIfRegistersEqual (xField op) (yField op)⟩,
    ⟨0xF00F, 0x8000, true, fun op => .loadRegister (xField op) (yField op)⟩,
    ⟨0xF00F, 0x8001, true, fun op => .orRegister (xField op) (yField op)⟩,
    ⟨0xF00F, 0x8002, true, fun op => .andRegister (xField op) (yField op)⟩,
    ⟨0xF00F, 0x8003, true, fun op => .xorRegister (xField op) (yField op)⟩,
    ⟨0xF00F, 0x8004, true, fun op => .addRegister (xField op) (yField op)⟩,
    ⟨0xF00F, 0x8005, false, fun op => .subtractRegister (xField op) (yField op)⟩,
    ⟨0xF00F, 0x8006, false, fun op => .shiftRight (xField op) (yField op)⟩,
    ⟨0xF00F, 0x8007, false, fun op => .subtractReverse (xField op) (yField op)⟩,
    ⟨0xF00F, 0x800E, false, fun op => .shiftLeft (xField op) (yField op)⟩,
    ⟨0xF00F, 0x9000, false, fun op => .skipIfRegistersNotEqual (xField op) (yField op)⟩ ]

/-- Group 4 of rule R78: mask F000. -/
def rowsF000 : List OpRow :=
  [ ⟨0xF000, 0x0000, true, fun op => .systemCall (nnnField op)⟩,
    ⟨0xF000, 0x1000, true, fun op => .jump (nnnField op)⟩,
    ⟨0xF000, 0x2000, true, fun op => .call (nnnField op)⟩,
    ⟨0xF000, 0x3000, true, fun op => .skipIfEqualByte (xField op) (kkField op)⟩,
    ⟨0xF000, 0x4000, true, fun op => .skipIfNotEqualByte (xField op) (kkField op)⟩,
    ⟨0xF000, 0x6000, true, fun op => .loadByte (xField op) (kkField op)⟩,
    ⟨0xF000, 0x7000, true, fun op => .addByte (xField op) (kkField op)⟩,
    ⟨0xF000, 0xA000, true, fun op => .loadImmediate (nnnField op)⟩,
    ⟨0xF000, 0xB000, false, fun op => .jumpOffset (nnnField op)⟩,
    ⟨0xF000, 0xC000, true, fun op => .random (xField op) (kkField op)⟩,
    ⟨0xF000, 0xD000, false, fun op => .draw (xField op) (yField op) (nField op)⟩ ]

/-- The 35 rows in the priority order of rule R78, most specific mask first. -/
def opRows : List OpRow := rowsFFFF ++ rowsF0FF ++ rowsF00F ++ rowsF000

/-- The rows a decoder keeps: all of them, or under UNIMPL_AS_DECODE_FAULT only the executed ones (rule R86). -/
def keptRows (drop : Bool) : List OpRow :=
  opRows.filter fun r => r.executed || !drop

/-- The first row whose pattern `op` meets, applied to `op` (rule R77). -/
def firstMatch : List OpRow → Opcode → Option Instr
  | [], _ => none
  | r :: rs, op => if op &&& r.mask = r.pattern then some (r.build op) else firstMatch rs op

/-- The mask-matching strategy; `none` is the outcome `Unrecognized` (rule R77). `drop` is UNIMPL_AS_DECODE_FAULT. -/
def decodeMask (drop : Bool) (op : Opcode) : Option Instr := firstMatch (keptRows drop) op

/-! ### The table-lookup decoder (rules R79, R80) -/

/-- Family 0, keyed on the lowest byte with the check of op[11:8] (rule R80). -/
def family0 (op : Opcode) : Option Instr :=
  if xField op = 0 ∧ kkField op = 0xE0 then some .clearScreen
  else if xField op = 0 ∧ kkField op = 0xEE then some .ret
  else some (.systemCall (nnnField op))

/-- Family 5, keyed on the lowest nibble (rule R80). -/
def keys5 : List (Nibble × (RegIdx → RegIdx → Instr)) := [(0x0, .skipIfRegistersEqual)]

/-- Family 8, keyed on the lowest nibble (rule R80). -/
def keys8 : List (Nibble × (RegIdx → RegIdx → Instr)) :=
  [ (0x0, .loadRegister), (0x1, .orRegister), (0x2, .andRegister), (0x3, .xorRegister), (0x4, .addRegister),
    (0x5, .subtractRegister), (0x6, .shiftRight), (0x7, .subtractReverse), (0xE, .shiftLeft) ]

/-- Family 9, keyed on the lowest nibble (rule R80). -/
def keys9 : List (Nibble × (RegIdx → RegIdx → Instr)) := [(0x0, .skipIfRegistersNotEqual)]

/-- Family E, keyed on the lowest byte (rule R80). -/
def keysE : List (Byte × (RegIdx → Instr)) := [(0x9E, .skipIfKey), (0xA1, .skipIfNotKey)]

/-- Family F, keyed on the lowest byte (rule R80). -/
def keysF : List (Byte × (RegIdx → Instr)) :=
  [ (0x07, .readDelay), (0x0A, .waitKey), (0x15, .writeDelay), (0x18, .writeSound), (0x1E, .addToAddress),
    (0x29, .loadFontAddress), (0x33, .storeBCD), (0x55, .storeRegisters), (0x65, .loadRegisters) ]

/-- A second-level lookup keyed on the lowest nibble; a key not listed gives `Unrecognized`. -/
def familyByNibble (keys : List (Nibble × (RegIdx → RegIdx → Instr))) (op : Opcode) : Option Instr :=
  (keys.lookup (nField op)).map fun build => build (xField op) (yField op)

/-- A second-level lookup keyed on the lowest byte; a key not listed gives `Unrecognized`. -/
def familyByByte (keys : List (Byte × (RegIdx → Instr))) (op : Opcode) : Option Instr :=
  (keys.lookup (kkField op)).map fun build => build (xField op)

/-- The first-level table T of rule R79, indexed by the highest nibble. -/
def firstLevel : List (Opcode → Option Instr) :=
  [ family0,
    fun op => some (.jump (nnnField op)),
    fun op => some (.call (nnnField op)),
    fun op => some (.skipIfEqualByte (xField op) (kkField op)),
    fun op => some (.skipIfNotEqualByte (xField op) (kkField op)),
    familyByNibble keys5,
    fun op => some (.loadByte (xField op) (kkField op)),
    fun op => some (.addByte (xField op) (kkField op)) ] ++
  [ familyByNibble keys8,
    familyByNibble keys9,
    fun op => some (.loadImmediate (nnnField op)),
    fun op => some (.jumpOffset (nnnField op)),
    fun op => some (.random (xField op) (kkField op)),
    fun op => some (.draw (xField op) (yField op) (nField op)),
    familyByByte keysE,
    familyByByte keysF ]

/-- The table-lookup strategy; `none` is `Unrecognized`. Each key of the tables stands for one variant, so dropping the
unimplemented patterns (rule R86) is dropping their values. -/
def decodeTable (drop : Bool) (op : Opcode) : Option Instr :=
  match firstLevel[(highNibble op).toNat]? with
  | none => none
  | some family => (family op).filter fun i => i.executed || !drop

/-! ### The decoder of a machine (rules R74, R82, R91) -/

/-- The decoder's output: a variant, or the distinct outcome `Unrecognized(op)` (rules R74, R91). -/
inductive Decoded where
  | instr (i : Instr)
  | unrecognized (op : Opcode)
  deriving DecidableEq, Repr

/-- One of the two strategies on one opcode. -/
def DecoderStrategy.run (strategy : DecoderStrategy) (drop : Bool) (op : Opcode) : Option Instr :=
  match strategy with
  | .mask => decodeMask drop op
  | .table => decodeTable drop op

/-- `decode(opcode)` of rule R91: total, a pure function of the opcode, under the strategy of the configuration. -/
def decode (cfg : Config) (op : Opcode) : Decoded :=
  match cfg.decoderStrategy.run cfg.unimplAsDecodeFault op with
  | some i => .instr i
  | none => .unrecognized op

/-! ### From and to bytes (rules R56, R70, R90, R102) -/

/-- The opcode of two bytes, big-endian: `(hi << 8) | lo` (rules R56, R102). -/
def assemble (hi lo : Byte) : Opcode := (hi.zeroExtend 16 <<< 8) ||| lo.zeroExtend 16

/-- The byte at the lower address: op[15:8]. -/
def highByte (op : Opcode) : Byte := op.extractLsb' 8 8

/-- The byte at the higher address: op[7:0]. -/
def lowByte (op : Opcode) : Byte := op.extractLsb' 0 8

/-- Why a sequence of bytes gives no instruction. -/
inductive DecodeReject where
  /-- Fewer than the two bytes an instruction occupies (rule R70). -/
  | tooShort
  /-- No variant has this opcode (rule R91). -/
  | unrecognized (op : Opcode)
  deriving DecidableEq, Repr

/-- Decode the first two bytes and return the rest: an instruction always consumes exactly two (rule R70). -/
def decodeBytes (cfg : Config) : List Byte → Except DecodeReject (Instr × List Byte)
  | hi :: lo :: rest =>
    match decode cfg (assemble hi lo) with
    | .instr i => .ok (i, rest)
    | .unrecognized op => .error (.unrecognized op)
  | _ => .error .tooShort

/-! ### The encoder, from the patterns of rule R75 and the formats of rule R73 -/

/-- Format A: `ccccaaaaaaaaaaaa`. -/
def encodeA (c : Nibble) (nnn : Addr12) : Opcode := c ++ nnn

/-- Format XK: `ccccxxxxkkkkkkkk`; format X with its fixed low byte as `kk`. -/
def encodeXK (c : Nibble) (x : RegIdx) (kk : Byte) : Opcode := c ++ x ++ kk

/-- Format XYN: `ccccxxxxyyyynnnn`; format XY with its fixed low nibble as `n`. -/
def encodeXYN (c : Nibble) (x y : RegIdx) (n : Nibble) : Opcode := c ++ x ++ y ++ n

/-- The word of an instruction. -/
def encode (i : Instr) : Opcode :=
  match i with
  | .clearScreen => 0x00E0
  | .ret => 0x00EE
  | .systemCall nnn => encodeA 0x0 nnn
  | .jump nnn => encodeA 0x1 nnn
  | .call nnn => encodeA 0x2 nnn
  | .skipIfEqualByte x kk => encodeXK 0x3 x kk
  | .skipIfNotEqualByte x kk => encodeXK 0x4 x kk
  | .skipIfRegistersEqual x y => encodeXYN 0x5 x y 0x0
  | .loadByte x kk => encodeXK 0x6 x kk
  | .addByte x kk => encodeXK 0x7 x kk
  | .loadRegister x y => encodeXYN 0x8 x y 0x0
  | .orRegister x y => encodeXYN 0x8 x y 0x1
  | .andRegister x y => encodeXYN 0x8 x y 0x2
  | .xorRegister x y => encodeXYN 0x8 x y 0x3
  | .addRegister x y => encodeXYN 0x8 x y 0x4
  | .subtractRegister x y => encodeXYN 0x8 x y 0x5
  | .shiftRight x y => encodeXYN 0x8 x y 0x6
  | .subtractReverse x y => encodeXYN 0x8 x y 0x7
  | .shiftLeft x y => encodeXYN 0x8 x y 0xE
  | .skipIfRegistersNotEqual x y => encodeXYN 0x9 x y 0x0
  | .loadImmediate nnn => encodeA 0xA nnn
  | .jumpOffset nnn => encodeA 0xB nnn
  | .random x kk => encodeXK 0xC x kk
  | .draw x y n => encodeXYN 0xD x y n
  | .skipIfKey x => encodeXK 0xE x 0x9E
  | .skipIfNotKey x => encodeXK 0xE x 0xA1
  | .readDelay x => encodeXK 0xF x 0x07
  | .waitKey x => encodeXK 0xF x 0x0A
  | .writeDelay x => encodeXK 0xF x 0x15
  | .writeSound x => encodeXK 0xF x 0x18
  | .addToAddress x => encodeXK 0xF x 0x1E
  | .loadFontAddress x => encodeXK 0xF x 0x29
  | .storeBCD x => encodeXK 0xF x 0x33
  | .storeRegisters x => encodeXK 0xF x 0x55
  | .loadRegisters x => encodeXK 0xF x 0x65

/-- The two bytes of an instruction, the high byte first (rules R70, R90). -/
def encodeBytes (i : Instr) : List Byte := [highByte (encode i), lowByte (encode i)]

/-- A program's bytes: a raw big-endian opcode stream without a header (rule R90). -/
def programBytes (is : List Instr) : List Byte := is.flatMap encodeBytes

/-! ### The opcode table's numbering -/

/-- The opcode whose bits are the low `nbits` of `w`, the rest zero. -/
def tableOpcode (nbits w : Nat) : Opcode := BitVec.ofNat 16 (w % 2 ^ nbits)

/-- The instruction that the standard machine's decoder reads from the word `w` of opcode_table.json, laid out in
memory order (high byte first). -/
def decodeTableWord (nbits w : Nat) : Option Instr :=
  match decodeBytes Config.standard [highByte (tableOpcode nbits w), lowByte (tableOpcode nbits w)] with
  | .ok (i, _) => some i
  | .error _ => none

end Sys2Proof
end

