-- ==== Sys2Proof/Machine/State.lean ====
section
/-! DEFINITION. The state of one machine instance, exactly the tuple of rule R20 (10_state.md) and the free value's
counter; the fault record of rule R201 (60_exceptions.md); the state after reset (rule R38). -/

namespace Sys2Proof.Machine

/-! ### The fault record (rules R36, R200, R201) -/

/-- What an out-of-bounds access was (rule R201). -/
inductive AccessKind where
  | fetch
  | data
  deriving DecidableEq, Repr

/-- How the stack pointer would have left 0..15 (rule R201). -/
inductive StackKind where
  | overflow
  | underflow
  deriving DecidableEq, Repr

/-- The record of a step fault: each holds the pc of the instruction or fetch that raised it (rule R201). -/
inductive FaultRecord where
  /-- `addr` is the pc of a fetch, or the lowest address of a data access that exceeds 4095. -/
  | outOfBounds (kind : AccessKind) (addr : Nat) (pc : Word)
  | decodeFault (opcode : Opcode) (pc : Word)
  | unimplementedFault (opcode : Opcode) (pc : Word)
  | stackFault (kind : StackKind) (pc : Word)
  deriving DecidableEq, Repr

/-! ### Why a step stops (the host's outcomes) -/

/-- Why a step answers no next state. -/
inductive Fault where
  /-- Raised by `step` alone, when the machine already holds the fault record `F` as the step begins: the step returns
  `Err(F)` and changes no state (rule R100). The step that raises a fault answers a next state that holds the record
  (log entry 1). Safe: nothing runs after a fault. -/
  | halted (F : FaultRecord)
  deriving DecidableEq, Repr

/-- Why an instruction has no meaning. -/
inductive Refusal where
  /-- Raised by an arm of `exec` for an instruction not modelled yet: no arm does. Safe: the model stops. -/
  | notModelled (mnemonic : String)
  deriving DecidableEq, Repr

/-! ### The state -/

/-- Memory as (address, byte) pairs in one canonical form (`Memory.wf`): an unlisted address holds its reset
contents (log entry 4). -/
abbrev Memory := List Host.Cell

/-- The tuple of rule R20, each element under the spec's name, and `draws`. -/
structure State where
  /-- mem[0..4095] (rules R20, R50). -/
  mem : Memory
  /-- V[0..15], the register file; V[15] is the flag register (rules R22, R23). -/
  V : Vector Byte 16
  /-- The address register (rule R26). -/
  I : Word
  /-- The program counter (rule R27). -/
  pc : Word
  /-- The one-shot flag that suppresses the advance (rule R31). -/
  suppress : Bool
  /-- stack[0..15] (rule R32). -/
  stack : Vector Word 16
  /-- The stack pointer, 0..15 (rule R32). -/
  sp : Fin 16
  /-- The delay timer (rule R35). -/
  delay : Byte
  /-- The sound timer (rule R35). -/
  sound : Byte
  /-- None, or the record of the fault that ended the run (rule R36). -/
  fault : Option FaultRecord
  /-- THE MODEL'S OWN field, not the spec's: how many bytes the random source has answered (log entry 2). -/
  draws : Nat
  deriving DecidableEq, Repr

/-- The state after initialize and reset (rules R38, R230, R231): pc = 512, every other element zero, no fault. The
value of `draws` is a DESIGN CHOICE (log entry 2). -/
def State.reset : State :=
  { mem := [], V := Vector.replicate 16 0, I := 0, pc := 512, suppress := false,
    stack := Vector.replicate 16 0, sp := 0, delay := 0, sound := 0, fault := none, draws := 0 }

end Sys2Proof.Machine
end

