-- ==== Sys2Proof/Machine/Ops.lean ====
section
/-! DEFINITION. The named operations over memory, registers, program counter and call stack, and the taking of a fault
(10_state.md, 20_memory.md, rules R108 and R203). -/

namespace Sys2Proof.Machine

/-! ### Memory (memory_interface, 20_memory.md) -/

/-- What an unlisted address holds: the reset contents (rules R38, R51). -/
def Memory.unlisted : Byte := 0

/-- The byte at an address. -/
def Memory.read : Memory → Nat → Byte
  | [], _ => Memory.unlisted
  | (k, b) :: rest, a => if a = k then b else Memory.read rest a

/-- Put a cell in front, unless it holds what an unlisted address holds. -/
def Memory.cons (a : Nat) (v : Byte) (rest : Memory) : Memory :=
  if v = Memory.unlisted then rest else (a, v) :: rest

/-- mem[a] <- v, in canonical form. -/
def Memory.write : Memory → Nat → Byte → Memory
  | [], a, v => Memory.cons a v []
  | (k, b) :: rest, a, v =>
    if a < k then Memory.cons a v ((k, b) :: rest)
    else if a = k then Memory.cons a v rest
    else (k, b) :: Memory.write rest a v

/-- Every listed address is at least `low`, addresses rise strictly, exist (below 4096), and no entry equals what an
unlisted address holds. -/
def Memory.wfFrom : Nat → Memory → Bool
  | _, [] => true
  | low, (k, b) :: rest => decide (low ≤ k) && decide (k < Config.memSize) && decide (b ≠ Memory.unlisted) && Memory.wfFrom (k + 1) rest

/-- The canonical form of memory (log entry 4). -/
def Memory.wf (m : Memory) : Bool := Memory.wfFrom 0 m

/-- Bytes written one by one at ascending addresses from `a`, without a check. -/
def Memory.writeBytes : Memory → Nat → List Byte → Memory
  | m, _, [] => m
  | m, a, b :: bs => Memory.writeBytes (m.write a b) (a + 1) bs

/-- The `n` bytes from `a`, without a check. -/
def Memory.readBytes (m : Memory) : Nat → Nat → List Byte
  | _, 0 => []
  | a, n + 1 => m.read a :: Memory.readBytes m (a + 1) n

/-! ### Faults (rules R14, R108, R203, R204) -/

/-- What a meaning answers. -/
abbrev Result := Host.Outcome State Fault Refusal

/-- Fault entry, the one operation that takes a fault: `fault <- F` and no other change (rules R108, R203). There is no
handler, vector, saved register or mode. -/
def raiseFault (F : FaultRecord) (s : State) : State := { s with fault := some F }

/-- The only way out of a fault: no instruction returns from one, reset does (rules R204, R231). Every element takes
its reset value; the draws already taken from the random source stay taken (log entry 2). -/
def restart (s : State) : State := { State.reset with draws := s.draws }

/-- The end of an instruction whose check either failed with a fault, which is then taken on the state `s` before the
instruction, or passed with the new state (rules R14, R108). -/
def settle (s : State) : Except FaultRecord State → Result
  | .error F => .next (raiseFault F s)
  | .ok t => .next t

/-! ### Checked accesses (rules R53, R54, R59) -/

/-- `MemRead(a, 1)` (rule R53). -/
def memRead (a : Nat) (s : State) : Except FaultRecord Byte :=
  if a > 4095 then .error (.outOfBounds .data a s.pc) else .ok (s.mem.read a)

/-- `MemWrite(a, 1, v)` (rule R54). -/
def memWrite (a : Nat) (v : Byte) (s : State) : Except FaultRecord State :=
  if a > 4095 then .error (.outOfBounds .data a s.pc) else .ok { s with mem := s.mem.write a v }

/-- The check of a whole access of `n` bytes from `a` before any byte moves: the fault records the lowest address that
exceeds 4095 (rules R59, R165 to R167, R201). -/
def rangeFault (a n : Nat) (s : State) : Option FaultRecord :=
  if n ≠ 0 ∧ a + (n - 1) > 4095 then some (.outOfBounds .data (max a 4096) s.pc) else none

/-- A sequence of MemRead at ascending addresses (rule R58). -/
def loadSeq : Nat → Nat → State → Except FaultRecord (List Byte)
  | _, 0, _ => .ok []
  | a, n + 1, s =>
    match memRead a s with
    | .error F => .error F
    | .ok b => (loadSeq (a + 1) n s).map fun bs => b :: bs

/-- A sequence of MemWrite at ascending addresses (rule R58). -/
def storeSeq : Nat → List Byte → State → Except FaultRecord State
  | _, [], s => .ok s
  | a, b :: bs, s =>
    match memWrite a b s with
    | .error F => .error F
    | .ok t => storeSeq (a + 1) bs t

/-- Load `n` bytes from `a`, the whole range checked first (rules R58, R59). -/
def loadBytes (a n : Nat) (s : State) : Except FaultRecord (List Byte) :=
  match rangeFault a n s with
  | some F => .error F
  | none => loadSeq a n s

/-- Store bytes from `a`, the whole range checked first (rules R58, R59). -/
def storeBytes (a : Nat) (bytes : List Byte) (s : State) : Except FaultRecord State :=
  match rangeFault a bytes.length s with
  | some F => .error F
  | none => storeSeq a bytes s

/-! ### Registers (register_file, address_register, timer_unit) -/

/-- V[x] (rule R13). -/
def State.reg (s : State) (x : RegIdx) : Byte := s.V[x.toNat]

/-- V[x] <- v (rule R13). -/
def State.setReg (s : State) (x : RegIdx) (v : Byte) : State := { s with V := s.V.set x.toNat v }

/-- V[k] <- the k-th byte, in ascending order from `k` (rule R167). -/
def setRegsFrom : Nat → List Byte → State → State
  | _, [], s => s
  | k, b :: bs, s => setRegsFrom (k + 1) bs (s.setReg (BitVec.ofNat 4 k) b)

/-- `RandomByte()`: the next byte of the random source, and the state after the draw (rules R149, R208). -/
def randomDraw (s : State) : Byte × State := (Config.randomByte s.draws, { s with draws := s.draws + 1 })

/-! ### Program counter (rules R27, R28, R31) -/

/-- PC_STEP of rule R10. -/
def pcStep : Word := 2

/-- Redirect control flow: pc <- target and the advance of this step suppressed (rules R28, R31). -/
def redirect (target : Word) (s : State) : State := { s with pc := target, suppress := true }

/-- A taken skip's extra step; the normal advance follows (rules R28, R125). -/
def skipIf (taken : Bool) (s : State) : State := if taken then { s with pc := s.pc + pcStep } else s

/-- The advance, cycle step 5: pc <- pc + 2 unless suppressed, and the suppression flag cleared (rule R107). -/
def advance (s : State) : State :=
  { s with pc := if s.suppress then s.pc else s.pc + pcStep, suppress := false }

/-! ### Call stack (rules R32, R33) -/

/-- sp <- sp + 1; stack[sp] <- value; a push at sp = 15 is a stack overflow (rules R33, R124). -/
def push (value : Word) (s : State) : Except FaultRecord State :=
  if s.sp = 15 then .error (.stackFault .overflow s.pc)
  else .ok { s with sp := s.sp + 1, stack := s.stack.set (s.sp + 1).val value }

/-- Read stack[sp]; sp <- sp - 1; a pop at sp = 0 is a stack underflow. The entry keeps its value (rules R33, R34,
R121). -/
def pop (s : State) : Except FaultRecord (Word × State) :=
  if s.sp = 0 then .error (.stackFault .underflow s.pc)
  else .ok (s.stack[s.sp], { s with sp := s.sp - 1 })

end Sys2Proof.Machine
end

