-- ==== Sys2Proof/Machine/Flags.lean ====
section
/-! DEFINITION. The alu's adds with carry and the write of the flag register (rules R23, R140, R141 of 42_register_alu.md).
The logical operations write no flag (rule R150). -/

namespace Sys2Proof.Machine

/-- FLAG_REG: V[15] (rules R10, R23). -/
def flagReg : RegIdx := 15

/-- A carry as the byte written to the flag register: 1 or 0 (rule R23). -/
def carryByte (carry : Bool) : Byte := if carry then 1 else 0

/-- `add8(a, b)`: the sum of natural numbers, its low 8 bits and the carry out of them (rule R140). -/
def add8 (a b : Byte) : Byte × Bool := (BitVec.ofNat 8 (a.toNat + b.toNat), decide (a.toNat + b.toNat > 255))

/-- `add16(a, b)`: the sum of natural numbers, its low 16 bits and the carry out of them (rule R141). -/
def add16 (a : Word) (b : Byte) : Word × Bool :=
  (BitVec.ofNat 16 (a.toNat + b.toNat), decide (a.toNat + b.toNat > 65535))

/-- V[15] <- carry, overwritten unconditionally (rules R23, R140). -/
def State.setFlag (s : State) (carry : Bool) : State := s.setReg flagReg (carryByte carry)

/-- The result to V[d], then the carry to V[15]: with d = 15 the carry stays (rule R140, decision D9). -/
def writeSum8 (d : RegIdx) (sum : Byte × Bool) (s : State) : State := (s.setReg d sum.1).setFlag sum.2

/-- The result to I, then the carry to V[15] (rules R141, R164). -/
def writeSum16 (sum : Word × Bool) (s : State) : State := { s with I := sum.1 }.setFlag sum.2

end Sys2Proof.Machine
end

