-- ==== Sys2Proof/Machine/Operands.lean ====
section
/-! DEFINITION. The operand forms (rules R15, R72 of 30_encoding.md) and the one data addressing mode (rule R55 of
20_memory.md). Register operands are `State.reg` and `State.setReg`; `kk` is used as it is. -/

namespace Sys2Proof.Machine

/-- An address operand in pc or I: zext_16(nnn) (rule R72). -/
def addressOperand (nnn : Addr12) : Word := nnn.zeroExtend 16

/-- The literal operand of write-delay and write-sound: zext_8(x), no register is read (rules R72, R162, R163). -/
def literalOperand (x : Nibble) : Byte := x.zeroExtend 8

/-- The effective address I + k, on natural numbers: it never wraps to low memory (rule R55). -/
def effectiveAddress (s : State) (k : Nat) : Nat := s.I.toNat + k

/-- How many registers "upto" x names: V[0]..V[x] inclusive (rules R72, R166, R167). -/
def uptoCount (x : RegIdx) : Nat := x.toNat + 1

/-- V[k], V[k+1], .. : `n` registers in ascending order. -/
def regsFrom (s : State) : Nat → Nat → List Byte
  | _, 0 => []
  | k, n + 1 => s.reg (BitVec.ofNat 4 k) :: regsFrom s (k + 1) n

/-- V[0..x] inclusive, in ascending order (rule R166). -/
def uptoRegs (s : State) (x : RegIdx) : List Byte := regsFrom s 0 (uptoCount x)

/-- The hundreds, tens and units digits of a byte (rules R150, R165). -/
def bcdDigits (v : Byte) : List Byte :=
  [ BitVec.ofNat 8 (v.toNat / 100), BitVec.ofNat 8 (v.toNat / 10 % 10), BitVec.ofNat 8 (v.toNat % 10) ]

end Sys2Proof.Machine
end

