-- ==== Sys2Proof/Machine/AddressTimerMemory.lean ====
section
/-! DEFINITION. The address-register, timer and memory instructions (43_address_timer_memory.md). I is unchanged by the
memory instructions (rules R165 to R167). -/

namespace Sys2Proof.Machine

/-- load-immediate: I <- nnn (rule R160). -/
def execLoadImmediate (nnn : Addr12) (s : State) : Result := .next { s with I := addressOperand nnn }

/-- read-delay: V[x] <- delay (rule R161). -/
def execReadDelay (x : RegIdx) (s : State) : Result := .next (s.setReg x s.delay)

/-- write-delay: delay <- the literal x, not V[x] (rule R162). -/
def execWriteDelay (x : Nibble) (s : State) : Result := .next { s with delay := literalOperand x }

/-- write-sound: sound <- the literal x, not V[x] (rule R163). -/
def execWriteSound (x : Nibble) (s : State) : Result := .next { s with sound := literalOperand x }

/-- add-to-address: I <- I + V[x], then V[15] <- the 16-bit carry (rule R164). -/
def execAddToAddress (x : RegIdx) (s : State) : Result :=
  .next (writeSum16 (add16 s.I (s.reg x)) s)

/-- store-BCD: the three digits of V[x] to mem[I..I+2]; OutOfBounds(data) when I + 2 > 4095 (rule R165). -/
def execStoreBCD (x : RegIdx) (s : State) : Result :=
  settle s (storeBytes (effectiveAddress s 0) (bcdDigits (s.reg x)) s)

/-- store-registers: V[0..x] to mem[I..I+x]; OutOfBounds(data) when I + x > 4095 (rule R166). -/
def execStoreRegisters (x : RegIdx) (s : State) : Result :=
  settle s (storeBytes (effectiveAddress s 0) (uptoRegs s x) s)

/-- load-registers: mem[I..I+x] to V[0..x]; OutOfBounds(data) when I + x > 4095 (rule R167). -/
def execLoadRegisters (x : RegIdx) (s : State) : Result :=
  settle s ((loadBytes (effectiveAddress s 0) (uptoCount x) s).map fun bytes => setRegsFrom 0 bytes s)

end Sys2Proof.Machine
end

