-- ==== Sys2Proof/Machine/Alu.lean ====
section
/-! DEFINITION. The register and arithmetic instructions (42_register_alu.md). Operands are read from the state before
the instruction (rule R106). -/

namespace Sys2Proof.Machine

/-- load-byte: V[x] <- kk (rule R142). -/
def execLoadByte (x : RegIdx) (kk : Byte) (s : State) : Result := .next (s.setReg x kk)

/-- add-byte: V[x] <- V[x] + kk, then V[15] <- carry (rule R143). -/
def execAddByte (x : RegIdx) (kk : Byte) (s : State) : Result :=
  .next (writeSum8 x (add8 (s.reg x) kk) s)

/-- load-register: V[x] <- V[y] (rule R144). -/
def execLoadRegister (x y : RegIdx) (s : State) : Result := .next (s.setReg x (s.reg y))

/-- or: V[x] <- V[x] | V[y], no flag (rule R145). -/
def execOrRegister (x y : RegIdx) (s : State) : Result := .next (s.setReg x (s.reg x ||| s.reg y))

/-- and: V[x] <- V[x] & V[y], no flag (rule R146). -/
def execAndRegister (x y : RegIdx) (s : State) : Result := .next (s.setReg x (s.reg x &&& s.reg y))

/-- xor: V[x] <- V[x] ^ V[y], no flag (rule R147). -/
def execXorRegister (x y : RegIdx) (s : State) : Result := .next (s.setReg x (s.reg x ^^^ s.reg y))

/-- add-register: V[x] <- V[x] + V[y], then V[15] <- carry (rule R148). -/
def execAddRegister (x y : RegIdx) (s : State) : Result :=
  .next (writeSum8 x (add8 (s.reg x) (s.reg y)) s)

/-- random: V[x] <- r & kk with one draw r of the random source (rule R149). -/
def execRandom (x : RegIdx) (kk : Byte) (s : State) : Result :=
  .next ((randomDraw s).2.setReg x ((randomDraw s).1 &&& kk))

end Sys2Proof.Machine
end

