-- ==== Sys2Proof/Machine/Control.lean ====
section
/-! DEFINITION. The control-transfer instructions (41_control.md): each meaning is the effect during execute (rule R105);
the advance of rule R107 follows it in the cycle. -/

namespace Sys2Proof.Machine

/-- clear-screen: no state effect in this core (rule R120). -/
def execClearScreen (s : State) : Result := .next s

/-- return: pc <- stack[sp], sp <- sp - 1, suppress <- 1; StackFault(underflow) at sp = 0 (rule R121). -/
def execRet (s : State) : Result :=
  settle s ((pop s).map fun popped => redirect popped.1 popped.2)

/-- system-call: a no-op that ignores its operand (rule R122). -/
def execSystemCall (_nnn : Addr12) (s : State) : Result := .next s

/-- jump: pc <- nnn, suppress <- 1 (rule R123). -/
def execJump (nnn : Addr12) (s : State) : Result := .next (redirect (addressOperand nnn) s)

/-- call: sp <- sp + 1, stack[sp] <- pc (the call's own address), pc <- nnn, suppress <- 1; StackFault(overflow) at
sp = 15 (rule R124). -/
def execCall (nnn : Addr12) (s : State) : Result :=
  settle s ((push s.pc s).map fun t => redirect (addressOperand nnn) t)

/-- skip-if-equal-byte: 2 more when V[x] = kk (rule R125). -/
def execSkipIfEqualByte (x : RegIdx) (kk : Byte) (s : State) : Result :=
  .next (skipIf (s.reg x == kk) s)

/-- skip-if-not-equal-byte: 2 more when V[x] ≠ kk (rule R126). -/
def execSkipIfNotEqualByte (x : RegIdx) (kk : Byte) (s : State) : Result :=
  .next (skipIf (s.reg x != kk) s)

/-- skip-if-registers-equal: 2 more when V[x] = V[y] (rule R127). -/
def execSkipIfRegistersEqual (x y : RegIdx) (s : State) : Result :=
  .next (skipIf (s.reg x == s.reg y) s)

end Sys2Proof.Machine
end

