-- ==== Sys2Proof/Machine/Unimplemented.lean ====
section
/-! DEFINITION. The eleven decoded but unimplemented variants (44_unimplemented.md). The one effect each has is to take
UnimplementedFault(op, pc) (rules R104, R180); none has its conventional CHIP-8 meaning. -/

namespace Sys2Proof.Machine

/-- The fault of an unimplemented variant. The opcode recorded is the variant's word: a word decodes to at most one
variant, and only that word does (log entry 7). -/
def raiseUnimplemented (i : Instr) (s : State) : Result :=
  .next (raiseFault (.unimplementedFault (encode i) s.pc) s)

/-- subtract-register (rule R181). -/
def execSubtractRegister (x y : RegIdx) (s : State) : Result := raiseUnimplemented (.subtractRegister x y) s

/-- shift-right (rule R182). -/
def execShiftRight (x y : RegIdx) (s : State) : Result := raiseUnimplemented (.shiftRight x y) s

/-- subtract-reverse (rule R183). -/
def execSubtractReverse (x y : RegIdx) (s : State) : Result := raiseUnimplemented (.subtractReverse x y) s

/-- shift-left (rule R184). -/
def execShiftLeft (x y : RegIdx) (s : State) : Result := raiseUnimplemented (.shiftLeft x y) s

/-- skip-if-registers-not-equal (rule R185). -/
def execSkipIfRegistersNotEqual (x y : RegIdx) (s : State) : Result :=
  raiseUnimplemented (.skipIfRegistersNotEqual x y) s

/-- jump-offset (rule R186). -/
def execJumpOffset (nnn : Addr12) (s : State) : Result := raiseUnimplemented (.jumpOffset nnn) s

/-- draw (rule R187). -/
def execDraw (x y : RegIdx) (n : Nibble) (s : State) : Result := raiseUnimplemented (.draw x y n) s

/-- skip-if-key (rule R188). -/
def execSkipIfKey (x : RegIdx) (s : State) : Result := raiseUnimplemented (.skipIfKey x) s

/-- skip-if-not-key (rule R189). -/
def execSkipIfNotKey (x : RegIdx) (s : State) : Result := raiseUnimplemented (.skipIfNotKey x) s

/-- wait-key: it does not wait, it faults at once (rule R190). -/
def execWaitKey (x : RegIdx) (s : State) : Result := raiseUnimplemented (.waitKey x) s

/-- load-font-address (rule R191). -/
def execLoadFontAddress (x : RegIdx) (s : State) : Result := raiseUnimplemented (.loadFontAddress x) s

end Sys2Proof.Machine
end

