-- ==== Sys2Proof/Machine/Cycle.lean ====
section
/-! DEFINITION. The fetch_unit and the fetch-decode-execute cycle (40_fetch_execute.md), for a machine of any
configuration (rule R11). -/

namespace Sys2Proof.Machine

/-- Cycle steps 1 and 2: the bound, then the two bytes at pc and pc + 1 combined big-endian (rules R101, R102). -/
def fetch (s : State) : Except FaultRecord Opcode :=
  if s.pc.toNat > Config.fetchLimit then .error (.outOfBounds .fetch s.pc.toNat s.pc)
  else .ok (assemble (s.mem.read s.pc.toNat) (s.mem.read (s.pc.toNat + 1)))

/-- The end of a step: a fault raised in it leaves every other element alone (rule R108), else the advance (rule
R107). -/
def finish (s : State) : State := if s.fault.isSome then s else advance s

/-- Cycle steps 4 and 5 for one decoded instruction (rules R105, R107). -/
def execute (i : Instr) (s : State) : Result :=
  match exec i s with
  | .next t => .next (finish t)
  | .fault r => .fault r
  | .refused r => .refused r

/-- Cycle steps 3 to 5 for one fetched opcode (rules R103 to R107). -/
def decodeExecute (cfg : Config) (op : Opcode) (s : State) : Result :=
  match decode cfg op with
  | .unrecognized op' => .next (raiseFault (.decodeFault op' s.pc) s)
  | .instr i => execute i s

/-- One cycle of a machine that holds no fault (rules R101 to R108). -/
def cycle (cfg : Config) (s : State) : Result :=
  match fetch s with
  | .error F => .next (raiseFault F s)
  | .ok op => decodeExecute cfg op s

/-- `step()`: a faulted machine returns its fault and changes nothing (rule R100), any other runs one cycle. -/
def stepWith (cfg : Config) (s : State) : Result :=
  match s.fault with
  | some F => .fault (.halted F)
  | none => cycle cfg s

/-- Where `step` fetches next when it can: the pc, or the entry point when no word can be fetched at pc (log
entry 18). -/
def fetchPlace (s : State) : Word := if s.pc.toNat > Config.fetchLimit then 512 else s.pc

/-- `s` made ready to fetch and run the word `op`: its two bytes stored where the fetch reads them (log entry 18). -/
def placeOpcode (op : Opcode) (s : State) : State :=
  { s with mem := s.mem.writeBytes (fetchPlace s).toNat [highByte op, lowByte op],
           pc := fetchPlace s, suppress := false, fault := none }

end Sys2Proof.Machine
end

