-- ==== Sys2Proof/Machine/Step.lean ====
section
/-! DEFINITION. The step of the standard machine (rules R100 to R109 of 40_fetch_execute.md, rule R11 of 00_scope.md). -/

namespace Sys2Proof.Machine

/-- One step of the machine whose parameters have the values of `Config.standard` (log entry 3). -/
def step (s : State) : Host.Outcome State Fault Refusal := stepWith Config.standard s

/-- `s` with the word `w` of opcode_table.json stored where `step` fetches its next instruction (log entry 18). -/
def State.withFetchWord (s : State) (nbits w : Nat) : State := placeOpcode (tableOpcode nbits w) s

end Sys2Proof.Machine
end

