-- ==== Sys2Proof/Machine/HostInterface.lean ====
section
/-! DEFINITION. The host's operations (rules R6, R37, R65 to R67, R109, R110, R114, R206, R211 to R213, R216, R217, R230,
R231): what each returns, what each may change, and when the host may call it. -/

namespace Sys2Proof.Machine

/-! ### The fault codes (rule R200) -/

/-- The code of a step fault (rule R200). -/
def FaultRecord.code : FaultRecord → Nat
  | .outOfBounds _ _ _ => 1
  | .decodeFault _ _ => 2
  | .unimplementedFault _ _ => 3
  | .stackFault _ _ => 4

/-- The pc of the instruction or fetch that raised a fault (rule R201). -/
def FaultRecord.pc : FaultRecord → Word
  | .outOfBounds _ _ pc => pc
  | .decodeFault _ pc => pc
  | .unimplementedFault _ pc => pc
  | .stackFault _ pc => pc

/-- Why load failed: it is no step fault and leaves the machine as it was (rules R67, R205). -/
inductive LoadError where
  | capacity
  | source
  deriving DecidableEq, Repr

/-- The code of every load error (rule R200). -/
def LoadError.code : LoadError → Nat
  | .capacity => 5
  | .source => 5

/-! ### initialize, reset, load -/

/-- `initialize(name)`: a machine in the state of rule R38. The name has no effect (rule R230). `draws` is where the new
machine stands in the random source (log entry 2). -/
def initMachine (_name : String) (draws : Nat) : State := { State.reset with draws := draws }

/-- `reset()` (rule R231). -/
def hostReset (s : State) : State := restart s

/-- `load(bytes)`; an unreadable byte source is `none` (rules R65 to R67). -/
def load (source : Option (List Byte)) (s : State) : Except LoadError State :=
  match source with
  | none => .error .source
  | some bytes =>
    if bytes.length > Config.maxProgram then .error .capacity
    else .ok { s with mem := s.mem.writeBytes Config.progBase bytes }

/-! ### step -/

/-- What `step()` returns (rule R109). -/
inductive StepResult where
  /-- The step raised no fault; `inBounds` says pc' ≤ 4095. -/
  | ok (inBounds : Bool)
  /-- The step raised the fault, or the machine already held it. -/
  | err (F : FaultRecord)
  /-- The model has no meaning for the instruction; no step returns it. -/
  | unmodelled (r : Refusal)
  deriving DecidableEq, Repr

/-- The result of a completed step from the state it left (rules R108, R109). -/
def resultOf (t : State) : StepResult :=
  match t.fault with
  | some F => .err F
  | none => .ok (decide (t.pc.toNat ≤ 4095))

/-- `step()` as the host sees it: the new state and the result (rules R100, R108, R109). -/
def stepCall (cfg : Config) (s : State) : State × StepResult :=
  match stepWith cfg s with
  | .next t => (t, resultOf t)
  | .fault (.halted F) => (s, .err F)
  | .refused r => (s, .unmodelled r)

/-! ### The timers' environment (rule R206) -/

/-- `tick_delay` (rule R206). -/
def tickDelay (s : State) : State := { s with delay := if s.delay = 0 then 0 else s.delay - 1 }

/-- `tick_sound` (rule R206). -/
def tickSound (s : State) : State := { s with sound := if s.sound = 0 then 0 else s.sound - 1 }

/-- What the host may do to the timers between two steps (rule R206). -/
inductive TimerAction where
  | tickDelay
  | tickSound
  | set (delay sound : Byte)
  deriving DecidableEq, Repr

/-- Which actions a timer environment allows (rule R206). Under `arbitrary` a tick is a special case of `set`. -/
def timerAllows (env : TimerEnv) (a : TimerAction) : Bool :=
  match env, a with
  | .none, _ => false
  | .decrement, .tickDelay => true
  | .decrement, .tickSound => true
  | .decrement, .set _ _ => false
  | .arbitrary, _ => true

/-- The effect of a timer action. -/
def TimerAction.apply (a : TimerAction) (s : State) : State :=
  match a with
  | .tickDelay => Machine.tickDelay s
  | .tickSound => Machine.tickSound s
  | .set delay sound => { s with delay := delay, sound := sound }

/-- The actions, one after the other, in the order given (rule R206: any number, in any order). -/
def applyActions (actions : List TimerAction) (s : State) : State := actions.foldl (fun t a => a.apply t) s

/-! ### run (rule R110) -/

/-- `run()`: step until a fault, whose record it returns (rule R110). `between` is what the host does to the timers between
the steps of the run, the `k`-th list after the `k`-th step: that the timers' host may act there as between any two steps
(rule R206), while run is "exactly the loop" of steps, is log entry 12. DESIGN CHOICE: no other call of the host acts
inside a run (log entry 21). The list's length bounds the steps: a run that has not returned within them gives `none`
(log entry 14). -/
def runFor (cfg : Config) : List (List TimerAction) → State → Option (State × FaultRecord)
  | [], _ => none
  | actions :: between, s =>
    match stepCall cfg s with
    | (t, .ok _) => runFor cfg between (applyActions actions t)
    | (t, .err F) => some (t, F)
    | (_, .unmodelled _) => none

/-- A run of at most `fuel` steps between which the host does nothing to the timers. -/
def undisturbed (fuel : Nat) : List (List TimerAction) := List.replicate fuel []

/-- The timer environment allows every action of the run (rule R206). -/
def runAllows (env : TimerEnv) (between : List (List TimerAction)) : Bool :=
  between.all fun actions => actions.all fun a => timerAllows env a

/-! ### Observation (rules R37, R114, R211, R212) -/

/-- The read-only snapshot (rule R37). -/
structure Snapshot where
  pc : Word
  sp : Fin 16
  stack : Vector Word 16
  V : Vector Byte 16
  I : Word
  delay : Byte
  sound : Byte
  deriving DecidableEq, Repr

/-- The debug dump: the snapshot, suppress and the fault record (rules R31, R212). -/
structure DebugDump where
  snapshot : Snapshot
  suppress : Bool
  fault : Option FaultRecord
  deriving DecidableEq, Repr

/-- `snapshot()` (rule R37). -/
def snapshot (s : State) : Snapshot :=
  { pc := s.pc, sp := s.sp, stack := s.stack, V := s.V, I := s.I, delay := s.delay, sound := s.sound }

/-- The debug dump (rule R212). -/
def debugDump (s : State) : DebugDump := { snapshot := snapshot s, suppress := s.suppress, fault := s.fault }

/-- `peek(a)`: mem[a] for a in 0..4095, and nothing for any other number (rule R212). -/
def peek (a : Nat) (s : State) : Option Byte := if a ≤ 4095 then some (s.mem.read a) else none

/-- What the observer is told (rules R114, R211). DEDUCED: the "resulting state" is every element of rule R20 but memory,
which rule R69 lets observers read only through peek (log entry 20). -/
structure Notice where
  opcode : Opcode
  instruction : Instr
  state : DebugDump
  deriving DecidableEq, Repr

/-- The notice of the step from `s`: after a step that does not fault, its opcode, instruction and resulting state (rule
R114). Whether and how a faulting step is noticed is open: it is the argument `onFault` (rule R211; log entry 15). -/
def observe (cfg : Config) (onFault : Option Notice) (s : State) : Option Notice :=
  match fetch s, stepCall cfg s with
  | .ok op, (t, .ok _) =>
    match decode cfg op with
    | .instr i => some { opcode := op, instruction := i, state := debugDump t }
    | .unrecognized _ => none
  | _, _ => onFault

/-! ### The host's calls and when they are admitted (rules R65, R216, R217) -/

/-- A machine in the host's hands: `started` says that a step has run since initialize or reset (log entry 13). -/
structure Session where
  state : State
  started : Bool
  deriving DecidableEq, Repr

/-- The host's calls on an existing machine (rule R216). -/
inductive HostCall where
  | load (source : Option (List Byte))
  | step
  /-- A call of run() that returns within as many steps as `between` has entries, with the timer actions between those
  steps (`runFor`). -/
  | run (between : List (List TimerAction))
  | reset
  | timer (a : TimerAction)
  | snapshot
  | debugDump
  | peek (a : Nat)
  deriving DecidableEq, Repr

/-- What a call returns. -/
inductive Reply where
  | nothing
  | loaded
  | loadError (e : LoadError)
  | stepped (r : StepResult)
  | ranInto (F : FaultRecord)
  | snapshot (v : Snapshot)
  | debugDump (v : DebugDump)
  | byte (b : Byte)
  deriving DecidableEq, Repr

/-- A fresh machine in the host's hands (rule R230). -/
def Session.fresh (name : String) (draws : Nat) : Session :=
  { state := initMachine name draws, started := false }

/-- load, before the first step only (rule R65): all bytes or none, and an error changes nothing (rules R65, R205). -/
def Session.load (source : Option (List Byte)) (w : Session) : Option (Session × Reply) :=
  if w.started then none
  else match Machine.load source w.state with
    | .error e => some (w, .loadError e)
    | .ok t => some ({ w with state := t }, .loaded)

/-- run(), when it returns within the bound and the timer environment allows the actions between its steps (rules R110,
R206). -/
def Session.run (cfg : Config) (between : List (List TimerAction)) (w : Session) : Option (Session × Reply) :=
  if runAllows cfg.timerEnv between then
    (runFor cfg between w.state).map fun r => ({ state := r.1, started := true }, .ranInto r.2)
  else none

/-- One call of the host: the machine after it and the reply, or `none` when the host may not make that call now (rule
R216), a run does not return within its bound, or an address of peek does not exist (log entry 13). -/
def Session.call (cfg : Config) (w : Session) (c : HostCall) : Option (Session × Reply) :=
  match c with
  | .load source => w.load source
  | .step => some ({ state := (stepCall cfg w.state).1, started := true }, .stepped (stepCall cfg w.state).2)
  | .run between => w.run cfg between
  | .reset => some ({ state := hostReset w.state, started := false }, .nothing)
  | .timer a => if timerAllows cfg.timerEnv a then some ({ w with state := a.apply w.state }, .nothing) else none
  | .snapshot => some (w, .snapshot (Machine.snapshot w.state))
  | .debugDump => some (w, .debugDump (Machine.debugDump w.state))
  | .peek a => (Machine.peek a w.state).map fun b => (w, .byte b)

/-- The machine after a sequence of calls, all admitted; `none` if one is not. -/
def Session.calls (cfg : Config) : Session → List HostCall → Option Session
  | w, [] => some w
  | w, c :: cs =>
    match w.call cfg c with
    | none => none
    | some (w', _) => w'.calls cfg cs

/-! ### Several machines (rule R213) -/

/-- A call on the `k`-th of several machines, each with its own configuration and its own state (rule R213). -/
def callAt (k : Nat) (c : HostCall) (ms : List (Config × Session)) : Option (List (Config × Session) × Reply) :=
  match ms[k]? with
  | none => none
  | some (cfg, w) => (w.call cfg c).map fun r => (ms.set k (cfg, r.1), r.2)

end Sys2Proof.Machine
end

