-- ==== Sys2Proof/Safety.lean ====
section
/-! DEFINITION. The terms in which claims are made: what holds between two steps (rule R238 of 70_reset_and_hazards.md),
what a machine looks like before its first step, which registers an instruction may write (rule R25 of 10_state.md),
which words are unrecognized (rule R83 of 30_encoding.md). -/

namespace Sys2Proof.Machine

/-- The machine holds no fault, so a step runs a cycle (rules R36, R100). -/
abbrev Running (s : State) : Prop := s.fault = none

/-- The word a fetch at pc reads (rule R102). -/
def wordAtPc (s : State) : Opcode := assemble (s.mem.read s.pc.toNat) (s.mem.read (s.pc.toNat + 1))

/-- What holds between any two steps (rule R238), and memory's canonical form. That sp is in 0..15 is its type. -/
structure Inv (s : State) : Prop where
  /-- suppress = 0 (rules R31, R238). -/
  suppress_clear : s.suppress = false
  /-- pc ≤ 4098 (rules R29, R238). -/
  pc_le : s.pc.toNat ≤ 4098
  /-- stack[0] = 0 (rules R34, R238). -/
  stack_zero : s.stack[0] = 0
  /-- Every entry is 0 or a pc a call executed at, so at most 4094 (rule R238). -/
  stack_le : ∀ k : Fin 16, s.stack[k].toNat ≤ 4094
  /-- Memory is in canonical form (log entry 4). -/
  mem_wf : s.mem.wf = true

/-- Everything but the program area, the timers and the random source's counter has its reset value. -/
def AsLoaded (s : State) : Prop :=
  s = { State.reset with mem := s.mem, delay := s.delay, sound := s.sound, draws := s.draws } ∧
    ∀ a, a < 512 → s.mem.read a = 0

/-- What holds of a machine in the host's hands: the invariant, and before the first step the loaded state (rules R65,
R66, R238). -/
structure SessionInv (w : Session) : Prop where
  inv : Inv w.state
  as_loaded : w.started = false → AsLoaded w.state

/-- Both timers hold values that the literal operand of write-delay and write-sound can give (rule R162). -/
def TimersLiteral (s : State) : Prop := s.delay.toNat ≤ 15 ∧ s.sound.toNat ≤ 15

/-- The words of rule R83 that no pattern matches. -/
def UnrecognizedWord (op : Opcode) : Prop :=
  (highNibble op = 0x5 ∧ nField op ≠ 0) ∨
  (highNibble op = 0x8 ∧ (nField op = 0x8 ∨ nField op = 0x9 ∨ nField op = 0xA ∨ nField op = 0xB ∨ nField op = 0xC ∨
    nField op = 0xD ∨ nField op = 0xF)) ∨
  (highNibble op = 0x9 ∧ nField op ≠ 0) ∨
  (highNibble op = 0xE ∧ kkField op ≠ 0x9E ∧ kkField op ≠ 0xA1) ∨
  (highNibble op = 0xF ∧ kkField op ≠ 0x07 ∧ kkField op ≠ 0x0A ∧ kkField op ≠ 0x15 ∧ kkField op ≠ 0x18 ∧
    kkField op ≠ 0x1E ∧ kkField op ≠ 0x29 ∧ kkField op ≠ 0x33 ∧ kkField op ≠ 0x55 ∧ kkField op ≠ 0x65)

/-- Which registers an instruction may write: the column "writes" of rule R25. -/
def mayWrite (i : Instr) (k : RegIdx) : Bool :=
  match i with
  | .loadByte x _ => k == x
  | .addByte x _ => k == x || k == 15
  | .loadRegister x _ => k == x
  | .orRegister x _ => k == x
  | .andRegister x _ => k == x
  | .xorRegister x _ => k == x
  | .addRegister x _ => k == x || k == 15
  | .random x _ => k == x
  | .readDelay x => k == x
  | .addToAddress _ => k == 15
  | .loadRegisters x => decide (k.toNat ≤ x.toNat)
  | .clearScreen => false
  | .ret => false
  | .systemCall _ => false
  | .jump _ => false
  | .call _ => false
  | .skipIfEqualByte _ _ => false
  | .skipIfNotEqualByte _ _ => false
  | .skipIfRegistersEqual _ _ => false
  | .subtractRegister _ _ => false
  | .shiftRight _ _ => false
  | .subtractReverse _ _ => false
  | .shiftLeft _ _ => false
  | .skipIfRegistersNotEqual _ _ => false
  | .loadImmediate _ => false
  | .jumpOffset _ => false
  | .draw _ _ _ => false
  | .skipIfKey _ => false
  | .skipIfNotKey _ => false
  | .waitKey _ => false
  | .writeDelay _ => false
  | .writeSound _ => false
  | .loadFontAddress _ => false
  | .storeBCD _ => false
  | .storeRegisters _ => false

/-- The pc after a step that runs `i` at `s` without a fault (rules R28, R113, R121 to R127). -/
def nextPc (i : Instr) (s : State) : Word :=
  match i with
  | .jump nnn => addressOperand nnn
  | .call nnn => addressOperand nnn
  | .ret => s.stack[s.sp]
  | .skipIfEqualByte x kk => if s.reg x = kk then s.pc + 4 else s.pc + 2
  | .skipIfNotEqualByte x kk => if s.reg x = kk then s.pc + 2 else s.pc + 4
  | .skipIfRegistersEqual x y => if s.reg x = s.reg y then s.pc + 4 else s.pc + 2
  | .clearScreen => s.pc + 2
  | .systemCall _ => s.pc + 2
  | .loadByte _ _ => s.pc + 2
  | .addByte _ _ => s.pc + 2
  | .loadRegister _ _ => s.pc + 2
  | .orRegister _ _ => s.pc + 2
  | .andRegister _ _ => s.pc + 2
  | .xorRegister _ _ => s.pc + 2
  | .addRegister _ _ => s.pc + 2
  | .subtractRegister _ _ => s.pc
  | .shiftRight _ _ => s.pc
  | .subtractReverse _ _ => s.pc
  | .shiftLeft _ _ => s.pc
  | .skipIfRegistersNotEqual _ _ => s.pc
  | .loadImmediate _ => s.pc + 2
  | .jumpOffset _ => s.pc
  | .random _ _ => s.pc + 2
  | .draw _ _ _ => s.pc
  | .skipIfKey _ => s.pc
  | .skipIfNotKey _ => s.pc
  | .readDelay _ => s.pc + 2
  | .waitKey _ => s.pc
  | .writeDelay _ => s.pc + 2
  | .writeSound _ => s.pc + 2
  | .addToAddress _ => s.pc + 2
  | .loadFontAddress _ => s.pc
  | .storeBCD _ => s.pc + 2
  | .storeRegisters _ => s.pc + 2
  | .loadRegisters _ => s.pc + 2

/-- The byte at `a` of memory `m` with `bytes` laid over it from `base` on. -/
def overlaid (base : Nat) (bytes : List Byte) (m : Memory) (a : Nat) : Byte :=
  if base ≤ a ∧ a < base + bytes.length then bytes.getD (a - base) 0 else m.read a

/-- Steps of the machine, none of which raises a fault, lead from `s` to `t`, each followed by the timer actions of its
entry (rules R110, R206). -/
def RunsTo (cfg : Config) : List (List TimerAction) → State → State → Prop
  | [], s, t => t = s
  | actions :: between, s, t =>
    ∃ u, stepWith cfg s = .next u ∧ Running u ∧ RunsTo cfg between (applyActions actions u) t

/-- `n` steps of the machine, none of which raises a fault, lead from `s` to `t`. -/
def StepsTo (cfg : Config) : Nat → State → State → Prop
  | 0, s, t => t = s
  | n + 1, s, t => ∃ u, stepWith cfg s = .next u ∧ Running u ∧ StepsTo cfg n u t

end Sys2Proof.Machine
end

