-- ==== Sys2Proof/Certificates/Slice0/Obligations.lean ====
section
/-! DEFINITION. The statements for the provers. Each docstring names the rule of spec/ it formalises; where a clause rests
on one of the spec's own decisions (D<n> of 92_eei_decisions.md) or on the model's, the docstring says so. -/

open Sys2Proof Sys2Proof.Machine

/-! ### The decoder and the encoder (30_encoding.md) -/

/-- Words written out from the opcode map (rule R75) decode to the instructions they stand for; 01E0 is a system-call,
not clear-screen (rule R80). The patterns are the spec's from general knowledge (D2; log entry 5). -/
def Obligations.SampleWordsDecodeAsTheOpcodeMapSays : Prop :=
  decode Config.standard 0b0000000011100000 = .instr .clearScreen ∧
  decode Config.standard 0b0000000111100000 = .instr (.systemCall 0x1E0) ∧
  decode Config.standard 0b0010001000100010 = .instr (.call 0x222) ∧
  decode Config.standard 0b1000000100100100 = .instr (.addRegister 1 2) ∧
  decode Config.standard 0b1111001001010101 = .instr (.storeRegisters 2) ∧
  decode Config.standard 0b1101000000010101 = .instr (.draw 0 1 5) ∧
  decode Config.standard 0b0101000100100001 = .unrecognized 0x5121

/-- Every well-formed instruction decodes from its own word, with every operand, under both strategies; an unimplemented
variant does unless UNIMPL_AS_DECODE_FAULT drops it (rules R75, R76, R86). -/
def Obligations.EncodedInstructionDecodesToItself : Prop :=
  ∀ (cfg : Config) (i : Instr), i.wf = true → (cfg.unimplAsDecodeFault = false ∨ i.executed = true) →
    decode cfg (encode i) = .instr i

/-- Whatever decodes is well-formed and has exactly the word it came from, so no two words decode to one instruction
(rule R76: no pattern has don't-care bits). -/
def Obligations.DecodedWordIsTheEncodingOfItsInstruction : Prop :=
  ∀ (cfg : Config) (op : Opcode) (i : Instr), decode cfg op = .instr i → i.wf = true ∧ encode i = op

/-- The two strategies agree on every word, with or without the unimplemented patterns (rule R81; that they agree on
words that are not valid is decision D5). -/
def Obligations.DecoderStrategiesAgreeOnEveryWord : Prop :=
  ∀ (drop : Bool) (op : Opcode), decodeMask drop op = decodeTable drop op

/-- The unrecognized words are exactly those of the table of rule R83, under both strategies. -/
def Obligations.UnrecognizedWordsAreThoseOfTheTable : Prop :=
  ∀ (strategy : DecoderStrategy) (op : Opcode), strategy.run false op = none ↔ UnrecognizedWord op

/-- UNIMPL_AS_DECODE_FAULT makes exactly the words of the eleven unimplemented variants unrecognized and changes no
other word (rule R86, decision D3). -/
def Obligations.DroppingUnimplementedPatternsDropsOnlyThem : Prop :=
  ∀ (strategy : DecoderStrategy) (op : Opcode),
    (∀ i, strategy.run true op = some i ↔ strategy.run false op = some i ∧ i.executed = true) ∧
    (strategy.run true op = none ↔
      (strategy.run false op = none ∨ ∃ i, strategy.run false op = some i ∧ i.executed = false))

/-- An instruction's two bytes, high byte first, decode to it and exactly they are consumed (rules R56, R70, R90). -/
def Obligations.EncodedBytesDecodeAndConsumeTwo : Prop :=
  ∀ (cfg : Config) (i : Instr) (rest : List Byte), i.wf = true →
    (cfg.unimplAsDecodeFault = false ∨ i.executed = true) →
    decodeBytes cfg (encodeBytes i ++ rest) = .ok (i, rest) ∧
    (∃ hi lo, encodeBytes i = [hi, lo] ∧ (encode i).toNat = hi.toNat * 256 + lo.toNat)

/-- No observable behaviour of a step depends on the decoder strategy (rule R82, with decision D5). -/
def Obligations.DecoderStrategyIsUnobservable : Prop :=
  ∀ (cfg : Config) (s : State),
    stepCall { cfg with decoderStrategy := .mask } s = stepCall { cfg with decoderStrategy := .table } s

/-! ### The cycle (40_fetch_execute.md) -/

/-- Rule R102: the opcode is the byte at pc shifted left by 8, ORed with the byte at pc + 1, without padding. -/
def Obligations.FetchedOpcodeIsTheTwoBytesAtPc : Prop :=
  (∀ s : State, s.pc.toNat ≤ 4094 →
    ∃ op, fetch s = .ok op ∧
      op = ((s.mem.read s.pc.toNat).zeroExtend 16 <<< 8) ||| (s.mem.read (s.pc.toNat + 1)).zeroExtend 16 ∧
      op.toNat = 256 * (s.mem.read s.pc.toNat).toNat + (s.mem.read (s.pc.toNat + 1)).toNat) ∧
  assemble 0x31 0x42 = 0x3142 ∧ assemble 0x01 0x02 = 0x0102 ∧
  assemble 0x01 0x02 ≠ 0x1200 ∧ assemble 0x01 0x02 ≠ 0x0012

/-- Rule R101: with pc > 4094 the step raises OutOfBounds(fetch, pc); with pc ≤ 4094 the fetch passes. -/
def Obligations.FetchBoundIsPc4094 : Prop :=
  ∀ (cfg : Config) (s : State), Running s →
    (4094 < s.pc.toNat → ∃ t, stepCall cfg s = (t, .err (.outOfBounds .fetch s.pc.toNat s.pc)) ∧
      t.fault = some (.outOfBounds .fetch s.pc.toNat s.pc)) ∧
    (s.pc.toNat ≤ 4094 → ∃ op, fetch s = .ok op)

/-- Rule R103: an unrecognized word raises DecodeFault(op, pc) and the step does not execute; that nothing but the fault
changes is rule R108 (decision D15). -/
def Obligations.UnrecognizedWordRaisesDecodeFault : Prop :=
  ∀ (cfg : Config) (s : State) (op : Opcode), Running s → fetch s = .ok op → decode cfg op = .unrecognized op →
    stepCall cfg s = ({ s with fault := some (.decodeFault op s.pc) }, .err (.decodeFault op s.pc))

/-- Rules R104, R180 and R86 (decision D3): the word of an unimplemented variant raises UnimplementedFault(op, pc), or
DecodeFault(op, pc) under UNIMPL_AS_DECODE_FAULT; nothing but the fault changes (D15), and every later step returns the
same fault. -/
def Obligations.UnimplementedWordFaultsForGood : Prop :=
  ∀ (cfg : Config) (s : State) (i : Instr), Running s → fetch s = .ok (encode i) → i.executed = false →
    ∃ F, F = (if cfg.unimplAsDecodeFault then FaultRecord.decodeFault (encode i) s.pc
        else FaultRecord.unimplementedFault (encode i) s.pc) ∧
      stepCall cfg s = ({ s with fault := some F }, .err F) ∧
      stepCall cfg { s with fault := some F } = ({ s with fault := some F }, .err F)

/-- A step runs the decoded instruction, under every configuration: when the bytes at pc decode to `i`, the step is execute
of `i`, and then, if it raised no fault, the advance of rule R107: pc + 2 unless suppressed, and the flag cleared. `step`
is the step of the standard configuration (log entry 3). -/
def Obligations.StepRunsTheDecodedInstructionThenAdvances : Prop :=
  (∀ (cfg : Config) (s : State) (i : Instr), Running s → s.pc.toNat ≤ 4094 →
    decode cfg (assemble (s.mem.read s.pc.toNat) (s.mem.read (s.pc.toNat + 1))) = .instr i →
    (∀ t, exec i s = .next t → t.fault = none →
      stepWith cfg s = .next { t with pc := if t.suppress then t.pc else t.pc + 2, suppress := false }) ∧
    (∀ t, exec i s = .next t → t.fault ≠ none → stepWith cfg s = .next t)) ∧
  ∀ s : State, step s = stepWith Config.standard s

/-- Rule R100 (decision D16): a faulted machine's step returns its fault and changes no state. -/
def Obligations.FaultedMachineOnlyReturnsItsFault : Prop :=
  ∀ (cfg : Config) (s : State) (F : FaultRecord), s.fault = some F →
    stepWith cfg s = .fault (.halted F) ∧ stepCall cfg s = (s, .err F)

/-- Every instruction and every step of a machine without a fault answers a next state: nothing is refused, and the model
stops only as rule R100 says. That a raising step is a next state is the model's choice (log entry 1). -/
def Obligations.EveryInstructionAndStepCompletes : Prop :=
  (∀ (i : Instr) (s : State), ∃ t, exec i s = .next t) ∧
  (∀ (cfg : Config) (s : State), (∃ t, stepWith cfg s = .next t) ↔ Running s)

/-- Rules R108, R201, R203 (decisions D15, D17): a step that raises a fault changes no other element, the record holds the
pc of the instruction, and the step returns it. -/
def Obligations.FaultingStepChangesNothingElse : Prop :=
  ∀ (cfg : Config) (s t : State) (F : FaultRecord), Running s → stepWith cfg s = .next t → t.fault = some F →
    t = { s with fault := some F } ∧ F.pc = s.pc ∧ stepCall cfg s = (t, .err F)

/-- Rule R109 (decision D18): a step that raises no fault returns Ok(pc' ≤ 4095), any other Err of the fault it
leaves. -/
def Obligations.StepResultReportsBoundsOrFault : Prop :=
  ∀ (cfg : Config) (s : State), Running s → ∃ t r, stepCall cfg s = (t, r) ∧ stepWith cfg s = .next t ∧
    ((t.fault = none ∧ r = .ok (decide (t.pc.toNat ≤ 4095))) ∨ ∃ F, t.fault = some F ∧ r = .err F)

/-- Rules R28, R113: the pc after a step that raises no fault, for every instruction, and suppress is 0 again (rules R31,
R235). The conditions of skip-if-not-equal-byte and skip-if-registers-equal are decision D35 (log entry 9). -/
def Obligations.NextPcOfEveryInstruction : Prop :=
  ∀ (cfg : Config) (s t : State) (i : Instr), Running s → s.suppress = false → fetch s = .ok (encode i) →
    decode cfg (encode i) = .instr i → stepWith cfg s = .next t → Running t →
    t.pc = nextPc i s ∧ t.suppress = false

/-- Rules R20, R23, R25, R26, R35, R105, R113: which instruction may write which element of the state during execute, for
all of them and every element, pc included; and which bytes of memory the two stores may change. The element `draws` is
the model's own (log entry 2). -/
def Obligations.OnlyTheListedInstructionsWriteEachElement : Prop :=
  ∀ (i : Instr) (s t : State), exec i s = .next t →
    (∀ k, mayWrite i k = false → t.reg k = s.reg k) ∧
    (t.pc ≠ s.pc → i = .ret ∨ (∃ nnn, i = .jump nnn) ∨ (∃ nnn, i = .call nnn) ∨
      (∃ x kk, i = .skipIfEqualByte x kk) ∨ (∃ x kk, i = .skipIfNotEqualByte x kk) ∨
      ∃ x y, i = .skipIfRegistersEqual x y) ∧
    (t.I ≠ s.I → (∃ nnn, i = .loadImmediate nnn) ∨ ∃ x, i = .addToAddress x) ∧
    (t.mem ≠ s.mem → (∃ x, i = .storeBCD x) ∨ ∃ x, i = .storeRegisters x) ∧
    (∀ a, t.mem.read a ≠ s.mem.read a →
      (∃ x, i = .storeBCD x ∧ effectiveAddress s 0 ≤ a ∧ a ≤ effectiveAddress s 2) ∨
      ∃ x, i = .storeRegisters x ∧ effectiveAddress s 0 ≤ a ∧ a ≤ effectiveAddress s x.toNat) ∧
    (t.stack ≠ s.stack → ∃ nnn, i = .call nnn) ∧
    (t.sp ≠ s.sp → i = .ret ∨ ∃ nnn, i = .call nnn) ∧
    (t.suppress ≠ s.suppress → i = .ret ∨ (∃ nnn, i = .jump nnn) ∨ ∃ nnn, i = .call nnn) ∧
    (t.delay ≠ s.delay → ∃ x, i = .writeDelay x) ∧
    (t.sound ≠ s.sound → ∃ x, i = .writeSound x) ∧
    (t.draws ≠ s.draws → ∃ x kk, i = .random x kk) ∧
    (t.fault ≠ s.fault → i.executed = false ∨ i = .ret ∨ (∃ nnn, i = .call nnn) ∨ (∃ x, i = .storeBCD x) ∨
      (∃ x, i = .storeRegisters x) ∨ ∃ x, i = .loadRegisters x)

/-! ### Control (41_control.md) -/

/-- Rules R120, R122: clear-screen and system-call, whatever its operand, change nothing; the net effect of the step is
pc + 2. -/
def Obligations.ClearScreenAndSystemCallAreNoOps : Prop :=
  ∀ (nnn : Addr12) (s : State),
    exec .clearScreen s = .next s ∧ exec (.systemCall nnn) s = .next s ∧
    (Running s → s.suppress = false →
      execute .clearScreen s = .next { s with pc := s.pc + 2 } ∧
      execute (.systemCall nnn) s = .next { s with pc := s.pc + 2 })

/-- Rule R121: return sets pc to stack[sp], lowers sp, suppresses the advance and clears no entry (D28); at sp = 0 it
raises StackFault(underflow) and changes nothing else (D15). -/
def Obligations.ReturnPopsOrUnderflows : Prop :=
  ∀ s : State,
    (s.sp ≠ 0 → ∃ t, exec .ret s = .next t ∧ t = { s with pc := t.pc, sp := t.sp, suppress := true } ∧
      t.pc = s.stack[s.sp] ∧ t.sp.val + 1 = s.sp.val) ∧
    (s.sp = 0 → exec .ret s = .next { s with fault := some (.stackFault .underflow s.pc) })

/-- Rule R123: jump sets pc to nnn and suppresses the advance, so the step leaves pc = nnn; a jump to 4095 is legal and
the next step raises OutOfBounds(fetch, 4095). -/
def Obligations.JumpGoesToItsAddress : Prop :=
  ∀ (cfg : Config) (nnn : Addr12) (s : State),
    ∃ t, exec (.jump nnn) s = .next t ∧ t = { s with pc := t.pc, suppress := true } ∧ t.pc.toNat = nnn.toNat ∧
      (Running s → ∃ u, execute (.jump nnn) s = .next u ∧ u = { s with pc := u.pc, suppress := false } ∧
        u.pc.toNat = nnn.toNat ∧ (nnn = 0xFFF → (stepCall cfg u).2 = .err (.outOfBounds .fetch 4095 0xFFF)))

/-- Rule R124: call raises sp, stores the call's own address at the new stack[sp], goes to nnn and suppresses the advance;
at sp = 15 it raises StackFault(overflow) and changes nothing else (D15). -/
def Obligations.CallPushesItsOwnAddressOrOverflows : Prop :=
  ∀ (nnn : Addr12) (s : State),
    (s.sp ≠ 15 → ∃ t, exec (.call nnn) s = .next t ∧
      t = { s with pc := t.pc, sp := t.sp, stack := t.stack, suppress := true } ∧
      t.pc.toNat = nnn.toNat ∧ t.sp.val = s.sp.val + 1 ∧
      ∀ k : Fin 16, t.stack[k] = if k = t.sp then s.pc else s.stack[k]) ∧
    (s.sp = 15 → exec (.call nnn) s = .next { s with fault := some (.stackFault .overflow s.pc) })

/-- Rule R121 corner case (a), warning W1: a call whose target holds a return comes back to the call itself after two
steps; only the stack entry differs. -/
def Obligations.CallAndReturnComeBackToTheCall : Prop :=
  ∀ (cfg : Config) (s : State) (nnn : Addr12), Running s → s.suppress = false → s.sp ≠ 15 →
    nnn.toNat ≤ 4094 → fetch s = .ok (encode (.call nnn)) →
    assemble (s.mem.read nnn.toNat) (s.mem.read (nnn.toNat + 1)) = encode .ret →
    ∃ u, stepWith cfg s = .next u ∧ u.pc.toNat = nnn.toNat ∧
      stepWith cfg u = .next { s with stack := s.stack.set (s.sp + 1).val s.pc }

/-- Rule R125: skip-if-equal-byte adds 2 during execute when V[x] = kk, so the step adds 4, and 2 otherwise; no register or
flag is written. -/
def Obligations.SkipIfEqualByteSkipsOnEquality : Prop :=
  ∀ (x : RegIdx) (kk : Byte) (s : State),
    ∃ t, exec (.skipIfEqualByte x kk) s = .next t ∧ t = { s with pc := t.pc } ∧
      t.pc = (if s.reg x = kk then s.pc + 2 else s.pc) ∧
      (Running s → s.suppress = false → execute (.skipIfEqualByte x kk) s =
        .next { s with pc := if s.reg x = kk then s.pc + 4 else s.pc + 2 })

/-- Rules R126, R127 under the spec's decision D35: the mirror condition, and the comparison of two registers, which always
skips for x = y. -/
def Obligations.OtherSkipsFollowTheirConditions : Prop :=
  ∀ (x y : RegIdx) (kk : Byte) (s : State),
    (∃ t, exec (.skipIfNotEqualByte x kk) s = .next t ∧ t = { s with pc := t.pc } ∧
      t.pc = (if s.reg x = kk then s.pc else s.pc + 2)) ∧
    (∃ t, exec (.skipIfRegistersEqual x y) s = .next t ∧ t = { s with pc := t.pc } ∧
      t.pc = (if s.reg x = s.reg y then s.pc + 2 else s.pc)) ∧
    (Running s → s.suppress = false →
      execute (.skipIfNotEqualByte x kk) s = .next { s with pc := if s.reg x = kk then s.pc + 2 else s.pc + 4 } ∧
      execute (.skipIfRegistersEqual x y) s =
        .next { s with pc := if s.reg x = s.reg y then s.pc + 4 else s.pc + 2 } ∧
      execute (.skipIfRegistersEqual x x) s = .next { s with pc := s.pc + 4 })

/-! ### Registers and alu (42_register_alu.md) -/

/-- Rules R142, R144: load-byte and load-register write V[x] and nothing else, x = 15 included. -/
def Obligations.LoadByteAndLoadRegisterWriteOnlyVx : Prop :=
  ∀ (x y : RegIdx) (kk : Byte) (s : State),
    (∃ t, exec (.loadByte x kk) s = .next t ∧ t = { s with V := t.V } ∧
      ∀ k, t.reg k = if k = x then kk else s.reg k) ∧
    (∃ t, exec (.loadRegister x y) s = .next t ∧ t = { s with V := t.V } ∧
      ∀ k, t.reg k = if k = x then s.reg y else s.reg k)

/-- Rules R145, R146, R147: or, and, xor write V[x] and no flag; V[15] changes only as the destination. -/
def Obligations.LogicalOperationsWriteOnlyVx : Prop :=
  ∀ (x y : RegIdx) (s : State),
    (∃ t, exec (.orRegister x y) s = .next t ∧ t = { s with V := t.V } ∧
      ∀ k, t.reg k = if k = x then s.reg x ||| s.reg y else s.reg k) ∧
    (∃ t, exec (.andRegister x y) s = .next t ∧ t = { s with V := t.V } ∧
      ∀ k, t.reg k = if k = x then s.reg x &&& s.reg y else s.reg k) ∧
    (∃ t, exec (.xorRegister x y) s = .next t ∧ t = { s with V := t.V } ∧
      (∀ k, t.reg k = if k = x then s.reg x ^^^ s.reg y else s.reg k) ∧ (x = y → t.reg x = 0))

/-- Rule R143: add-byte writes the sum modulo 256 to V[x] and the carry to V[15]; with x = 15 the carry stays (decision
D9). -/
def Obligations.AddByteWritesSumThenCarry : Prop :=
  ∀ (x : RegIdx) (kk : Byte) (s : State),
    ∃ t, exec (.addByte x kk) s = .next t ∧ t = { s with V := t.V } ∧
      (x ≠ 15 → (t.reg x).toNat = ((s.reg x).toNat + kk.toNat) % 256) ∧
      t.reg 15 = (if (s.reg x).toNat + kk.toNat > 255 then 1 else 0) ∧
      ∀ k, k ≠ x → k ≠ 15 → t.reg k = s.reg k

/-- Rule R148: add-register reads both operands before any write (D10), writes the sum modulo 256 to V[x] and the carry to
V[15]; with x = 15 the carry stays (D9). -/
def Obligations.AddRegisterWritesSumThenCarry : Prop :=
  ∀ (x y : RegIdx) (s : State),
    ∃ t, exec (.addRegister x y) s = .next t ∧ t = { s with V := t.V } ∧
      (x ≠ 15 → (t.reg x).toNat = ((s.reg x).toNat + (s.reg y).toNat) % 256) ∧
      t.reg 15 = (if (s.reg x).toNat + (s.reg y).toNat > 255 then 1 else 0) ∧
      ∀ k, k ≠ x → k ≠ 15 → t.reg k = s.reg k

/-- Rule R149: random writes one byte of the random source masked with kk to V[x] and takes exactly one byte. The byte is a
free value (D20; log entry 2): the statement holds whatever it is. -/
def Obligations.RandomMasksOneDraw : Prop :=
  ∀ (x : RegIdx) (kk : Byte) (s : State),
    ∃ t, exec (.random x kk) s = .next t ∧ t = { s with V := t.V, draws := s.draws + 1 } ∧
      (∀ k, t.reg k = if k = x then Config.randomByte s.draws &&& kk else s.reg k) ∧
      (kk = 0 → t.reg x = 0)

/-! ### Address register, timers, memory (43_address_timer_memory.md) -/

/-- Rule R160: load-immediate sets I to nnn, at most 4095, and nothing else. -/
def Obligations.LoadImmediateSetsI : Prop :=
  ∀ (nnn : Addr12) (s : State),
    ∃ t, exec (.loadImmediate nnn) s = .next t ∧ t = { s with I := t.I } ∧ t.I.toNat = nnn.toNat ∧ t.I.toNat ≤ 4095

/-- Rule R161: read-delay copies the delay timer to V[x] and changes nothing else. -/
def Obligations.ReadDelayCopiesDelayToVx : Prop :=
  ∀ (x : RegIdx) (s : State),
    ∃ t, exec (.readDelay x) s = .next t ∧ t = { s with V := t.V } ∧
      ∀ k, t.reg k = if k = x then s.delay else s.reg k

/-- Rules R162, R163: write-delay and write-sound store the literal x, 0..15; no register plays a part. -/
def Obligations.TimerWritesStoreTheLiteral : Prop :=
  ∀ (x : Nibble) (s : State),
    (∃ t, exec (.writeDelay x) s = .next t ∧ t = { s with delay := t.delay } ∧ t.delay.toNat = x.toNat) ∧
    (∃ t, exec (.writeSound x) s = .next t ∧ t = { s with sound := t.sound } ∧ t.sound.toNat = x.toNat)

/-- Rule R164: add-to-address sets I to the sum modulo 65536 and V[15] to the 16-bit carry, and nothing else; passing 4095
sets no flag. -/
def Obligations.AddToAddressSetsIAndSixteenBitCarry : Prop :=
  ∀ (x : RegIdx) (s : State),
    ∃ t, exec (.addToAddress x) s = .next t ∧ t = { s with V := t.V, I := t.I } ∧
      t.I.toNat = (s.I.toNat + (s.reg x).toNat) % 65536 ∧
      t.reg 15 = (if s.I.toNat + (s.reg x).toNat > 65535 then 1 else 0) ∧
      ∀ k, k ≠ 15 → t.reg k = s.reg k

/-- Rule R165 with decisions D11 and D14: store-BCD stores the three digits of V[x] at I, I+1, I+2 and nothing else; when
I + 2 > 4095 it raises OutOfBounds at the first address above 4095 and stores nothing. -/
def Obligations.StoreBcdStoresThreeDigitsOrFaults : Prop :=
  ∀ (x : RegIdx) (s : State),
    (s.mem.wf = true → effectiveAddress s 2 ≤ 4095 →
      ∃ t, exec (.storeBCD x) s = .next t ∧ t = { s with mem := t.mem } ∧
        (t.mem.read (effectiveAddress s 0)).toNat = (s.reg x).toNat / 100 ∧
        (t.mem.read (effectiveAddress s 1)).toNat = (s.reg x).toNat / 10 % 10 ∧
        (t.mem.read (effectiveAddress s 2)).toNat = (s.reg x).toNat % 10 ∧
        ∀ a, a < effectiveAddress s 0 ∨ effectiveAddress s 2 < a → t.mem.read a = s.mem.read a) ∧
    (4095 < effectiveAddress s 2 →
      exec (.storeBCD x) s = .next { s with fault := some (.outOfBounds .data (max s.I.toNat 4096) s.pc) })

/-- Rule R166 with decisions D12 and D14: store-registers stores V[0..x] at I..I+x and nothing else, I unchanged; when
I + x > 4095 it raises OutOfBounds and stores nothing. -/
def Obligations.StoreRegistersStoresVZeroToXOrFaults : Prop :=
  ∀ (x : RegIdx) (s : State),
    (s.mem.wf = true → effectiveAddress s x.toNat ≤ 4095 →
      ∃ t, exec (.storeRegisters x) s = .next t ∧ t = { s with mem := t.mem } ∧
        (∀ k : RegIdx, k.toNat ≤ x.toNat → t.mem.read (effectiveAddress s k.toNat) = s.reg k) ∧
        ∀ a, a < effectiveAddress s 0 ∨ effectiveAddress s x.toNat < a → t.mem.read a = s.mem.read a) ∧
    (4095 < effectiveAddress s x.toNat →
      exec (.storeRegisters x) s = .next { s with fault := some (.outOfBounds .data (max s.I.toNat 4096) s.pc) })

/-- Rule R167 with decisions D12 and D14: load-registers loads V[0..x] from I..I+x, leaves the registers above x, I and
memory alone; when I + x > 4095 it raises OutOfBounds and loads nothing. -/
def Obligations.LoadRegistersLoadsVZeroToXOrFaults : Prop :=
  ∀ (x : RegIdx) (s : State),
    (effectiveAddress s x.toNat ≤ 4095 →
      ∃ t, exec (.loadRegisters x) s = .next t ∧ t = { s with V := t.V } ∧
        ∀ k : RegIdx, t.reg k =
          if k.toNat ≤ x.toNat then s.mem.read (effectiveAddress s k.toNat) else s.reg k) ∧
    (4095 < effectiveAddress s x.toNat →
      exec (.loadRegisters x) s = .next { s with fault := some (.outOfBounds .data (max s.I.toNat 4096) s.pc) })

/-! ### Unimplemented variants (44_unimplemented.md) -/

/-- Rules R104, R180 to R191 (decision D3): executing any of the eleven unimplemented variants takes
UnimplementedFault(op, pc) and does nothing else, whatever the operands. -/
def Obligations.UnimplementedVariantsTakeTheirFault : Prop :=
  ∀ (x y : RegIdx) (n : Nibble) (nnn : Addr12) (s : State),
    let takes (i : Instr) (op : Nat) := exec i s =
      .next { s with fault := some (.unimplementedFault (BitVec.ofNat 16 op) s.pc) }
    takes (.subtractRegister x y) (0x8005 + x.toNat * 256 + y.toNat * 16) ∧
    takes (.shiftRight x y) (0x8006 + x.toNat * 256 + y.toNat * 16) ∧
    takes (.subtractReverse x y) (0x8007 + x.toNat * 256 + y.toNat * 16) ∧
    takes (.shiftLeft x y) (0x800E + x.toNat * 256 + y.toNat * 16) ∧
    takes (.skipIfRegistersNotEqual x y) (0x9000 + x.toNat * 256 + y.toNat * 16) ∧
    takes (.jumpOffset nnn) (0xB000 + nnn.toNat) ∧
    takes (.draw x y n) (0xD000 + x.toNat * 256 + y.toNat * 16 + n.toNat) ∧
    takes (.skipIfKey x) (0xE09E + x.toNat * 256) ∧
    takes (.skipIfNotKey x) (0xE0A1 + x.toNat * 256) ∧
    takes (.waitKey x) (0xF00A + x.toNat * 256) ∧
    takes (.loadFontAddress x) (0xF029 + x.toNat * 256)

/-! ### Memory (20_memory.md) -/

/-- Rules R53, R54: MemRead and MemWrite within 0..4095, and their fault above. The write needs memory in its canonical
form, which every step keeps (`StepKeepsTheInvariant`). -/
def Obligations.MemReadAndMemWriteAreBoundsChecked : Prop :=
  ∀ (a : Nat) (v : Byte) (s : State), s.mem.wf = true →
    (a ≤ 4095 → memRead a s = .ok (s.mem.read a) ∧
      ∃ t, memWrite a v s = .ok t ∧ t = { s with mem := t.mem } ∧ memRead a t = .ok v ∧
        ∀ b, b ≠ a → memRead b t = memRead b s) ∧
    (4095 < a → memRead a s = .error (.outOfBounds .data a s.pc) ∧
      memWrite a v s = .error (.outOfBounds .data a s.pc))

/-- Two memories in canonical form that read alike at every address are the same data, so equal machines are equal states
(the model's representation, log entry 4). -/
def Obligations.CanonicalMemoriesThatReadAlikeAreEqual : Prop :=
  ∀ m n : Memory, m.wf = true → n.wf = true → (∀ a, a ≤ 4095 → m.read a = n.read a) → m = n

/-- Rules R63, R236 (decision D23): after a store by store-registers or store-BCD that completes, the next step fetches the
two bytes at pc + 2, each as stored where the store covers it and as before where it does not: both, one or none. -/
def Obligations.StoreIntoCodeIsSeenByTheNextFetch : Prop :=
  ∀ (cfg : Config) (s : State) (x : RegIdx), Running s → s.suppress = false → s.mem.wf = true → s.pc.toNat ≤ 4092 →
    (fetch s = .ok (encode (.storeRegisters x)) → effectiveAddress s x.toNat ≤ 4095 →
      ∃ t, stepWith cfg s = .next t ∧ Running t ∧
        fetch t = .ok (assemble (overlaid (effectiveAddress s 0) (uptoRegs s x) s.mem (s.pc.toNat + 2))
          (overlaid (effectiveAddress s 0) (uptoRegs s x) s.mem (s.pc.toNat + 3)))) ∧
    (fetch s = .ok (encode (.storeBCD x)) → effectiveAddress s 2 ≤ 4095 →
      ∃ t, stepWith cfg s = .next t ∧ Running t ∧
        fetch t = .ok (assemble (overlaid (effectiveAddress s 0) (bcdDigits (s.reg x)) s.mem (s.pc.toNat + 2))
          (overlaid (effectiveAddress s 0) (bcdDigits (s.reg x)) s.mem (s.pc.toNat + 3))))

/-! ### Whole-machine rules -/

/-- Rule R238 and memory's canonical form: every step from a state that meets the invariant leads to one that does. -/
def Obligations.StepKeepsTheInvariant : Prop :=
  ∀ (cfg : Config) (s t : State), Inv s → stepWith cfg s = .next t → Inv t

/-- The state after reset, and a machine fresh from initialize, meet the invariants. -/
def Obligations.ResetAndFreshMachinesMeetTheInvariant : Prop :=
  Inv State.reset ∧ ∀ (name : String) (draws : Nat), SessionInv (Session.fresh name draws)

/-- Rules R65, R66, R216, R238: every admitted call of the host keeps the machine's invariant, and until the first step
the machine is in its loaded state, with the reserved area zero. -/
def Obligations.EveryHostCallKeepsTheSessionInvariant : Prop :=
  ∀ (cfg : Config) (w w' : Session) (c : HostCall) (r : Reply), SessionInv w → w.call cfg c = some (w', r) →
    SessionInv w'

/-- Rule R162 corner case (a) and rule R206: unless the host may set the timers freely, both timers stay in 0..15 under every
call of the host. -/
def Obligations.TimersStayWithinTheLiteralRange : Prop :=
  ∀ (cfg : Config) (w w' : Session) (c : HostCall) (r : Reply), cfg.timerEnv ≠ .arbitrary →
    TimersLiteral w.state → w.call cfg c = some (w', r) → TimersLiteral w'.state

/-- Rule R237: read-delay after write-delay gives the value written when the host did nothing, and at most that value after
any number of ticks. -/
def Obligations.DelayReadBackIsAtMostTheValueWritten : Prop :=
  ∀ (x : Nibble) (r : RegIdx) (s : State) (ticks : List TimerAction),
    (∀ a ∈ ticks, timerAllows .decrement a = true) →
    ∃ t u, exec (.writeDelay x) s = .next t ∧
      exec (.readDelay r) (ticks.foldl (fun st a => a.apply st) (finish t)) = .next u ∧
      (u.reg r).toNat ≤ x.toNat ∧ (ticks = [] → (u.reg r).toNat = x.toNat)

/-- Rule R206 under TIMER_ENV = decrement: a tick lowers its timer by one and stops at zero, and changes nothing else; none
allows nothing. The decrement is the spec's from general knowledge (G6). -/
def Obligations.TicksDecrementAndStopAtZero : Prop :=
  ∀ s : State,
    (∃ t, TimerAction.tickDelay.apply s = t ∧ t = { s with delay := t.delay } ∧ t.delay.toNat = s.delay.toNat - 1) ∧
    (∃ t, TimerAction.tickSound.apply s = t ∧ t = { s with sound := t.sound } ∧ t.sound.toNat = s.sound.toNat - 1) ∧
    ∀ a, timerAllows .none a = false

/-- Rules R35, R207: no instruction reads the sound timer. Two machines that differ in it alone take steps that differ in it
alone. The two stand at the same place in the random source and draw the same byte (log entry 2). -/
def Obligations.SoundTimerIsNeverRead : Prop :=
  ∀ (cfg : Config) (s t : State) (v : Byte), stepWith cfg s = .next t →
    ∃ w, stepWith cfg { s with sound := v } = .next { t with sound := w } ∧ (w = v ∨ w = t.sound)

/-- Rules R36, R100, R204 (decision D16): once a started machine holds a fault, no sequence of the host's calls without a
reset changes anything but the timers, and the fault stays. -/
def Obligations.FaultLastsUntilReset : Prop :=
  ∀ (cfg : Config) (calls : List HostCall) (w w' : Session) (F : FaultRecord), w.started = true →
    w.state.fault = some F → HostCall.reset ∉ calls → w.calls cfg calls = some w' →
    w'.state = { w.state with delay := w'.state.delay, sound := w'.state.sound } ∧ w'.state.fault = some F

/-- Rule R111: a machine whose memory holds zeros from pc on executes system-call(0) until pc passes 4094, and then faults
at the fetch; nothing but pc and fault changes. -/
def Obligations.ZeroMemorySlidesToTheFetchFault : Prop :=
  ∀ (cfg : Config) (s : State), Running s → s.suppress = false → s.pc.toNat ≤ 4094 →
    (∀ a, s.pc.toNat ≤ a → a ≤ 4095 → s.mem.read a = 0) →
    ∃ n t, n ≤ 2048 ∧ StepsTo cfg n s t ∧ t = { s with pc := t.pc } ∧ 4095 ≤ t.pc.toNat ∧ t.pc.toNat ≤ 4096 ∧
      stepWith cfg t = .next { t with fault := some (.outOfBounds .fetch t.pc.toNat t.pc) }

/-! ### The host (20_memory.md, 60_exceptions.md, 70_reset_and_hazards.md) -/

/-- Rules R110, R206: run returns a fault exactly when some number of steps without a fault, each followed by the timer
actions the host makes there, leads to a step that returns it, and it returns the state that step leaves. When the host
does nothing between the steps, these are the steps of the machine alone. The bound on the number of steps is the model's
(log entry 14), and so are the place of the timer actions inside a run (log entry 12) and that no other call acts there (log
entry 21). -/
def Obligations.RunReturnsTheFirstFault : Prop :=
  (∀ (cfg : Config) (between : List (List TimerAction)) (s t : State) (F : FaultRecord),
    runFor cfg between s = some (t, F) ↔
      ∃ n u, n < between.length ∧ RunsTo cfg (between.take n) s u ∧ stepCall cfg u = (t, .err F)) ∧
  ∀ (cfg : Config) (fuel : Nat) (s t : State) (F : FaultRecord),
    runFor cfg (undisturbed fuel) s = some (t, F) ↔
      ∃ n u, n < fuel ∧ StepsTo cfg n s u ∧ stepCall cfg u = (t, .err F)

/-- Rule R231: after reset every element has its initial value, whatever it was before, and memory is all zero. -/
def Obligations.HostResetRestoresEveryElement : Prop :=
  ∀ s : State, ∃ t, hostReset s = t ∧ t.pc.toNat = 512 ∧ t.sp = 0 ∧ t.I = 0 ∧ t.delay = 0 ∧ t.sound = 0 ∧
    t.suppress = false ∧ t.fault = none ∧ (∀ k, t.reg k = 0) ∧ (∀ k : Fin 16, t.stack[k] = 0) ∧
    ∀ a, a ≤ 4095 → peek a t = some 0

/-- Rules R65 to R67, R205 (decision D21): load places the bytes verbatim from 512 on and changes nothing else; more than
3584 bytes or an unreadable source is an error. -/
def Obligations.LoadPlacesTheBytesOrFails : Prop :=
  ∀ (bytes : List Byte) (s : State), s.mem.wf = true →
    (bytes.length ≤ 3584 → ∃ t, load (some bytes) s = .ok t ∧ t = { s with mem := t.mem } ∧
      (∀ k (h : k < bytes.length), peek (512 + k) t = some bytes[k]) ∧
      ∀ a, a < 512 ∨ 512 + bytes.length ≤ a → peek a t = peek a s) ∧
    (3584 < bytes.length → load (some bytes) s = .error .capacity) ∧
    load none s = .error .source

/-- Rules R65, R205, R216 (decision D21): load is admitted only before the first step; a failed load leaves the machine as it
was. -/
def Obligations.LoadIsAdmittedOnlyBeforeTheFirstStep : Prop :=
  ∀ (cfg : Config) (w : Session) (source : Option (List Byte)),
    (w.started = true → w.call cfg (.load source) = none) ∧
    (w.started = false → ∃ w' r, w.call cfg (.load source) = some (w', r) ∧ w'.started = false ∧
      ((r = .loaded ∧ load source w.state = .ok w'.state) ∨ ∃ e, r = .loadError e ∧ load source w.state = .error e ∧ w' = w)) ∧
    (∃ w' r, w.call cfg .step = some (w', r) ∧ w'.started = true)

/-- Rules R69, R216 (decision D34): what a call of the host other than step, run and reset may change: load memory alone,
a timer action the timers alone, every other call nothing. -/
def Obligations.HostCallsBetweenStepsWriteOnlyMemoryOrTimers : Prop :=
  ∀ (cfg : Config) (w w' : Session) (c : HostCall) (r : Reply), w.call cfg c = some (w', r) →
    c ≠ .step → c ≠ .reset → (∀ between, c ≠ .run between) →
    w'.started = w.started ∧
    ((∃ source, c = .load source) → w'.state = { w.state with mem := w'.state.mem }) ∧
    ((∃ a, c = .timer a) → w'.state = { w.state with delay := w'.state.delay, sound := w'.state.sound }) ∧
    ((∀ source, c ≠ .load source) → (∀ a, c ≠ .timer a) → w' = w)

/-- Rule R114: after each step that does not fault the observer is told the opcode, the instruction and the resulting state,
whatever it may be told of faulting steps (log entry 15). That the resulting state is every element but memory, the
contents of the debug dump, is the model's reading of rules R69 and R114 (log entry 20). -/
def Obligations.ObserverIsToldOfEveryCompletedStep : Prop :=
  ∀ (cfg : Config) (onFault : Option Notice) (s t : State), Running s → stepWith cfg s = .next t → Running t →
    ∃ op i, fetch s = .ok op ∧ decode cfg op = .instr i ∧
      observe cfg onFault s = some { opcode := op, instruction := i, state := debugDump t }

/-- Rules R37, R212: the snapshot, the debug dump and peek change nothing and show the state (decision D29 for the dump and
peek). That peek of a number above 4095 is no call is the model's choice (log entry 13). -/
def Obligations.ObservationChangesNothing : Prop :=
  ∀ (cfg : Config) (w : Session) (a : Nat),
    (∃ v, w.call cfg .snapshot = some (w, .snapshot v) ∧ v.pc = w.state.pc ∧ v.sp = w.state.sp ∧
      v.stack = w.state.stack ∧ v.V = w.state.V ∧ v.I = w.state.I ∧ v.delay = w.state.delay ∧
      v.sound = w.state.sound) ∧
    (∃ v, w.call cfg .debugDump = some (w, .debugDump v) ∧ w.call cfg .snapshot = some (w, .snapshot v.snapshot) ∧
      v.suppress = w.state.suppress ∧ v.fault = w.state.fault) ∧
    (a ≤ 4095 → w.call cfg (.peek a) = some (w, .byte (w.state.mem.read a))) ∧
    (4095 < a → w.call cfg (.peek a) = none)

/-- Rule R213: a call on one instance changes no other. -/
def Obligations.CallOnOneInstanceLeavesTheOthers : Prop :=
  ∀ (k : Nat) (c : HostCall) (ms ms' : List (Config × Session)) (r : Reply), callAt k c ms = some (ms', r) →
    ms'.length = ms.length ∧ ∀ j, j ≠ k → ms'[j]? = ms[j]?
end

