-- ==== Sys2Proof/Laws/Decode.lean ====
section
/-! SUPPORT. The fields of an opcode, of an encoded word and of assembled bytes, and the masks of the opcode map as
conditions on fields (rules R71, R73, R76 of 30_encoding.md). Field lemmas go through the value as a natural number. -/

namespace Sys2Proof

/-! ### Words and fields as natural numbers -/

theorem toNat_encodeA (c : Nibble) (nnn : Addr12) : (encodeA c nnn).toNat = c.toNat * 4096 + nnn.toNat := by
  have h := BitVec.toNat_append c nnn
  rw [← Nat.shiftLeft_add_eq_or_of_lt nnn.isLt, Nat.shiftLeft_eq] at h
  exact h

theorem toNat_append4 (c x : Nibble) : (c ++ x).toNat = c.toNat * 16 + x.toNat := by
  rw [BitVec.toNat_append, ← Nat.shiftLeft_add_eq_or_of_lt x.isLt, Nat.shiftLeft_eq]

theorem toNat_encodeXK (c : Nibble) (x : RegIdx) (kk : Byte) :
    (encodeXK c x kk).toNat = c.toNat * 4096 + x.toNat * 256 + kk.toNat := by
  have e : (encodeXK c x kk).toNat = ((c ++ x) ++ kk).toNat := rfl
  rw [e, BitVec.toNat_append, ← Nat.shiftLeft_add_eq_or_of_lt kk.isLt, Nat.shiftLeft_eq, toNat_append4]
  omega

theorem toNat_encodeXYN (c : Nibble) (x y : RegIdx) (n : Nibble) :
    (encodeXYN c x y n).toNat = c.toNat * 4096 + x.toNat * 256 + y.toNat * 16 + n.toNat := by
  have e : (encodeXYN c x y n).toNat = (c ++ x ++ y ++ n).toNat := rfl
  rw [e, BitVec.toNat_append, ← Nat.shiftLeft_add_eq_or_of_lt n.isLt, Nat.shiftLeft_eq, BitVec.toNat_append,
    ← Nat.shiftLeft_add_eq_or_of_lt y.isLt, Nat.shiftLeft_eq, toNat_append4]
  omega

theorem toNat_highNibble (op : Opcode) : (highNibble op).toNat = op.toNat / 4096 % 16 := by
  simp [highNibble, BitVec.extractLsb'_toNat, Nat.shiftRight_eq_div_pow]

theorem toNat_xField (op : Opcode) : (xField op).toNat = op.toNat / 256 % 16 := by
  simp [xField, BitVec.extractLsb'_toNat, Nat.shiftRight_eq_div_pow]

theorem toNat_yField (op : Opcode) : (yField op).toNat = op.toNat / 16 % 16 := by
  simp [yField, BitVec.extractLsb'_toNat, Nat.shiftRight_eq_div_pow]

theorem toNat_nField (op : Opcode) : (nField op).toNat = op.toNat % 16 := by
  simp [nField, BitVec.extractLsb'_toNat]

theorem toNat_kkField (op : Opcode) : (kkField op).toNat = op.toNat % 256 := by
  simp [kkField, BitVec.extractLsb'_toNat]

theorem toNat_nnnField (op : Opcode) : (nnnField op).toNat = op.toNat % 4096 := by
  simp [nnnField, BitVec.extractLsb'_toNat]

/-! ### Fields of encoded words -/

section Fields

variable (c x y n : Nibble) (kk : Byte) (nnn : Addr12)

@[simp] theorem highNibble_encodeA : highNibble (encodeA c nnn) = c := by
  apply BitVec.eq_of_toNat_eq
  rw [toNat_highNibble, toNat_encodeA]
  have := nnn.isLt
  have := c.isLt
  omega

@[simp] theorem nnnField_encodeA : nnnField (encodeA c nnn) = nnn := by
  apply BitVec.eq_of_toNat_eq
  rw [toNat_nnnField, toNat_encodeA]
  have := nnn.isLt
  omega

@[simp] theorem highNibble_encodeXK : highNibble (encodeXK c x kk) = c := by
  apply BitVec.eq_of_toNat_eq
  rw [toNat_highNibble, toNat_encodeXK]
  have := c.isLt
  have := x.isLt
  have := kk.isLt
  omega

@[simp] theorem xField_encodeXK : xField (encodeXK c x kk) = x := by
  apply BitVec.eq_of_toNat_eq
  rw [toNat_xField, toNat_encodeXK]
  have := x.isLt
  have := kk.isLt
  omega

@[simp] theorem kkField_encodeXK : kkField (encodeXK c x kk) = kk := by
  apply BitVec.eq_of_toNat_eq
  rw [toNat_kkField, toNat_encodeXK]
  have := kk.isLt
  omega

@[simp] theorem highNibble_encodeXYN : highNibble (encodeXYN c x y n) = c := by
  apply BitVec.eq_of_toNat_eq
  rw [toNat_highNibble, toNat_encodeXYN]
  have := c.isLt
  have := x.isLt
  have := y.isLt
  have := n.isLt
  omega

@[simp] theorem xField_encodeXYN : xField (encodeXYN c x y n) = x := by
  apply BitVec.eq_of_toNat_eq
  rw [toNat_xField, toNat_encodeXYN]
  have := x.isLt
  have := y.isLt
  have := n.isLt
  omega

@[simp] theorem yField_encodeXYN : yField (encodeXYN c x y n) = y := by
  apply BitVec.eq_of_toNat_eq
  rw [toNat_yField, toNat_encodeXYN]
  have := y.isLt
  have := n.isLt
  omega

@[simp] theorem nField_encodeXYN : nField (encodeXYN c x y n) = n := by
  apply BitVec.eq_of_toNat_eq
  rw [toNat_nField, toNat_encodeXYN]
  have := n.isLt
  omega

end Fields

/-! ### A word is its fields -/

theorem encodeA_fields (op : Opcode) : encodeA (highNibble op) (nnnField op) = op := by
  apply BitVec.eq_of_toNat_eq
  rw [toNat_encodeA, toNat_highNibble, toNat_nnnField]
  have := op.isLt
  omega

theorem encodeXK_fields (op : Opcode) : encodeXK (highNibble op) (xField op) (kkField op) = op := by
  apply BitVec.eq_of_toNat_eq
  rw [toNat_encodeXK, toNat_highNibble, toNat_xField, toNat_kkField]
  have := op.isLt
  omega

theorem encodeXYN_fields (op : Opcode) : encodeXYN (highNibble op) (xField op) (yField op) (nField op) = op := by
  apply BitVec.eq_of_toNat_eq
  rw [toNat_encodeXYN, toNat_highNibble, toNat_xField, toNat_yField, toNat_nField]
  have := op.isLt
  omega

/-- Two words with equal nibbles are equal, and conversely. -/
theorem encodeXYN_inj {c x y n c' x' y' n' : Nibble} :
    encodeXYN c x y n = encodeXYN c' x' y' n' ↔ c = c' ∧ x = x' ∧ y = y' ∧ n = n' := by
  constructor
  · intro h
    exact ⟨by simpa using congrArg highNibble h, by simpa using congrArg xField h,
      by simpa using congrArg yField h, by simpa using congrArg nField h⟩
  · rintro ⟨rfl, rfl, rfl, rfl⟩
    rfl

/-! ### Masks (rules R76, R78) -/

theorem encodeXYN_and (c x y n c' x' y' n' : Nibble) :
    encodeXYN c x y n &&& encodeXYN c' x' y' n' = encodeXYN (c &&& c') (x &&& x') (y &&& y') (n &&& n') := by
  have h : (c ++ x ++ y ++ n) &&& (c' ++ x' ++ y' ++ n') =
      ((c &&& c') ++ (x &&& x') ++ (y &&& y') ++ (n &&& n')) := by
    simp only [BitVec.and_append]
  exact h

/-- An opcode under a mask meets a pattern exactly when each nibble does. -/
theorem mask_iff (op : Opcode) (mc mx my mn pc px py pn : Nibble) :
    op &&& encodeXYN mc mx my mn = encodeXYN pc px py pn ↔
      highNibble op &&& mc = pc ∧ xField op &&& mx = px ∧ yField op &&& my = py ∧ nField op &&& mn = pn := by
  conv_lhs => rw [← encodeXYN_fields op, encodeXYN_and]
  exact encodeXYN_inj

theorem and_F (v : Nibble) : v &&& 0xF = v := by
  revert v
  decide

theorem and_0 (v : Nibble) : v &&& 0 = 0 := by
  revert v
  decide

/-- The mask F000 tests the highest nibble. -/
theorem mask_F000 (op : Opcode) (c : Nibble) : op &&& 0xF000 = encodeXYN c 0 0 0 ↔ highNibble op = c := by
  have h := mask_iff op 0xF 0 0 0 c 0 0 0
  have e : encodeXYN 0xF 0 0 0 = (0xF000 : Opcode) := by decide
  rw [e, and_F, and_0, and_0, and_0] at h
  simpa using h

/-- The mask F00F tests the highest and the lowest nibble. -/
theorem mask_F00F (op : Opcode) (c n : Nibble) :
    op &&& 0xF00F = encodeXYN c 0 0 n ↔ highNibble op = c ∧ nField op = n := by
  have h := mask_iff op 0xF 0 0 0xF c 0 0 n
  have e : encodeXYN 0xF 0 0 0xF = (0xF00F : Opcode) := by decide
  rw [e, and_F, and_F, and_0, and_0] at h
  simpa using h

/-- The lowest byte is the two lowest nibbles. -/
theorem kkField_nibbles (op : Opcode) : (kkField op).toNat = (yField op).toNat * 16 + (nField op).toNat := by
  rw [toNat_kkField, toNat_yField, toNat_nField]
  omega

/-- The mask F0FF tests the highest nibble and the lowest byte. -/
theorem mask_F0FF (op : Opcode) (c : Nibble) (kk : Byte) :
    op &&& 0xF0FF = encodeXK c 0 kk ↔ highNibble op = c ∧ kkField op = kk := by
  have hw : encodeXK c 0 kk = encodeXYN c 0 (kk.extractLsb' 4 4) (kk.extractLsb' 0 4) := by
    apply BitVec.eq_of_toNat_eq
    rw [toNat_encodeXK, toNat_encodeXYN]
    have := kk.isLt
    simp [BitVec.extractLsb'_toNat, Nat.shiftRight_eq_div_pow]
    omega
  have h := mask_iff op 0xF 0 0xF 0xF c 0 (kk.extractLsb' 4 4) (kk.extractLsb' 0 4)
  have e : encodeXYN 0xF 0 0xF 0xF = (0xF0FF : Opcode) := by decide
  rw [e, ← hw, and_F, and_F, and_F, and_0] at h
  rw [h]
  have split : kkField op = kk ↔ yField op = kk.extractLsb' 4 4 ∧ nField op = kk.extractLsb' 0 4 := by
    have := kk.isLt
    have hk := kkField_nibbles op
    have := (yField op).isLt
    have := (nField op).isLt
    constructor
    · rintro rfl
      constructor <;> apply BitVec.eq_of_toNat_eq <;>
        simp [BitVec.extractLsb'_toNat, Nat.shiftRight_eq_div_pow] <;> omega
    · rintro ⟨hy, hn⟩
      apply BitVec.eq_of_toNat_eq
      rw [hk, hy, hn]
      simp [BitVec.extractLsb'_toNat, Nat.shiftRight_eq_div_pow]
      omega
  tauto

/-- The mask FFFF tests the whole word. -/
theorem mask_FFFF (op : Opcode) : op &&& 0xFFFF = op := by
  have e : (0xFFFF : Opcode) = BitVec.allOnes 16 := by decide
  rw [e, BitVec.and_allOnes]

/-! ### The rows of the opcode map as conditions on fields (rules R75, R79, R80) -/

/-- A row with mask FFFF. -/
theorem row_FFFF {c x : Nibble} {kk : Byte} {w : Opcode} (e : encodeXK c x kk = w) (op : Opcode) :
    op &&& 0xFFFF = w ↔ highNibble op = c ∧ xField op = x ∧ kkField op = kk := by
  rw [mask_FFFF, ← e]
  constructor
  · rintro rfl
    simp
  · rintro ⟨rfl, rfl, rfl⟩
    exact (encodeXK_fields op).symm

/-- A row with mask F0FF. -/
theorem row_F0FF {c : Nibble} {kk : Byte} {w : Opcode} (e : encodeXK c 0 kk = w) (op : Opcode) :
    op &&& 0xF0FF = w ↔ highNibble op = c ∧ kkField op = kk := by
  rw [← e]
  exact mask_F0FF op c kk

/-- A row with mask F00F. -/
theorem row_F00F {c n : Nibble} {w : Opcode} (e : encodeXYN c 0 0 n = w) (op : Opcode) :
    op &&& 0xF00F = w ↔ highNibble op = c ∧ nField op = n := by
  rw [← e]
  exact mask_F00F op c n

/-- A row with mask F000. -/
theorem row_F000 {c : Nibble} {w : Opcode} (e : encodeXYN c 0 0 0 = w) (op : Opcode) :
    op &&& 0xF000 = w ↔ highNibble op = c := by
  rw [← e]
  exact mask_F000 op c

/-- The lowest nibble is that of the lowest byte. -/
theorem nField_kkField (op : Opcode) : nField op = (kkField op).extractLsb' 0 4 := by
  apply BitVec.eq_of_toNat_eq
  simp [nField, kkField]

/-- One entry of a keyed table. -/
theorem lookup_entry {α β : Type} [DecidableEq α] (a k : α) (b : β) (rest : List (α × β)) :
    List.lookup a ((k, b) :: rest) = if a = k then some b else List.lookup a rest := by
  by_cases h : a = k
  · subst h
    simp
  · have e : (a == k) = false := by simpa using h
    simp [List.lookup, e, h]

/-- The sixteen families (rule R79). -/
theorem nibble_cases (h : Nibble) :
    h = 0 ∨ h = 1 ∨ h = 2 ∨ h = 3 ∨ h = 4 ∨ h = 5 ∨ h = 6 ∨ h = 7 ∨ h = 8 ∨ h = 9 ∨ h = 10 ∨ h = 11 ∨ h = 12 ∨
      h = 13 ∨ h = 14 ∨ h = 15 := by
  revert h
  decide

/-! ### Bytes (rules R56, R102) -/

theorem toNat_assemble (hi lo : Byte) : (assemble hi lo).toNat = hi.toNat * 256 + lo.toNat := by
  have hlo := lo.isLt
  have hhi := hi.isLt
  have e : hi.toNat <<< 8 % 65536 = hi.toNat <<< 8 := by
    rw [Nat.shiftLeft_eq]
    omega
  simp only [assemble, BitVec.toNat_or, BitVec.toNat_shiftLeft, BitVec.truncate_eq_setWidth, BitVec.toNat_setWidth]
  rw [Nat.mod_eq_of_lt (by omega : hi.toNat < 2 ^ 16), Nat.mod_eq_of_lt (by omega : lo.toNat < 2 ^ 16), e,
    ← Nat.shiftLeft_add_eq_or_of_lt hlo, Nat.shiftLeft_eq]

theorem toNat_highByte (op : Opcode) : (highByte op).toNat = op.toNat / 256 := by
  have := op.isLt
  simp [highByte, BitVec.extractLsb'_toNat, Nat.shiftRight_eq_div_pow]
  omega

theorem toNat_lowByte (op : Opcode) : (lowByte op).toNat = op.toNat % 256 := by
  simp [lowByte, BitVec.extractLsb'_toNat]

/-- The two bytes of a word give the word back. -/
@[simp] theorem assemble_bytes (op : Opcode) : assemble (highByte op) (lowByte op) = op := by
  apply BitVec.eq_of_toNat_eq
  rw [toNat_assemble, toNat_highByte, toNat_lowByte]
  omega

@[simp] theorem highByte_assemble (hi lo : Byte) : highByte (assemble hi lo) = hi := by
  apply BitVec.eq_of_toNat_eq
  rw [toNat_highByte, toNat_assemble]
  have := lo.isLt
  omega

@[simp] theorem lowByte_assemble (hi lo : Byte) : lowByte (assemble hi lo) = lo := by
  apply BitVec.eq_of_toNat_eq
  rw [toNat_lowByte, toNat_assemble]
  have := lo.isLt
  omega

end Sys2Proof
end

