-- ==== Sys2Proof/Laws/Memory.lean ====
section
/-! SUPPORT. Memory: every operation keeps the canonical form, and a read after a write gives the value written and
leaves every other address alone (rules R53, R54, R60, R61 of 20_memory.md). -/

namespace Sys2Proof.Machine

/-- One entry of a canonical memory, taken apart. -/
theorem Memory.wfFrom_cons {low k : Nat} {b : Byte} {rest : Memory} :
    Memory.wfFrom low ((k, b) :: rest) = true ↔
      low ≤ k ∧ k < 4096 ∧ b ≠ Memory.unlisted ∧ Memory.wfFrom (k + 1) rest = true := by
  simp [Memory.wfFrom, Config.memSize, and_assoc]

/-- A canonical memory stays canonical under a smaller lower bound. -/
theorem Memory.wfFrom_mono {m : Memory} {low low' : Nat} (hle : low' ≤ low) (h : m.wfFrom low = true) :
    m.wfFrom low' = true := by
  cases m with
  | nil => rfl
  | cons cell rest =>
    obtain ⟨k, b⟩ := cell
    rw [Memory.wfFrom_cons] at h ⊢
    exact ⟨by omega, h.2⟩

/-- Below its lower bound a canonical memory lists nothing. -/
theorem Memory.read_below {m : Memory} {low a : Nat} (h : m.wfFrom low = true) (ha : a < low) :
    m.read a = Memory.unlisted := by
  induction m generalizing low with
  | nil => rfl
  | cons cell rest ih =>
    obtain ⟨k, b⟩ := cell
    rw [Memory.wfFrom_cons] at h
    rw [Memory.read, if_neg (by omega)]
    exact ih h.2.2.2 (by omega)

/-- No address from 4096 on is listed. -/
theorem Memory.read_above {m : Memory} {low a : Nat} (h : m.wfFrom low = true) (ha : 4096 ≤ a) :
    m.read a = Memory.unlisted := by
  induction m generalizing low with
  | nil => rfl
  | cons cell rest ih =>
    obtain ⟨k, b⟩ := cell
    rw [Memory.wfFrom_cons] at h
    rw [Memory.read, if_neg (by omega)]
    exact ih h.2.2.2

theorem Memory.cons_wf {low a : Nat} {v : Byte} {rest : Memory} (hlow : low ≤ a) (ha : a < 4096)
    (h : rest.wfFrom (a + 1) = true) : (Memory.cons a v rest).wfFrom low = true := by
  rw [Memory.cons]
  split
  · exact Memory.wfFrom_mono (by omega) h
  · rw [Memory.wfFrom_cons]
    exact ⟨hlow, ha, ‹_›, h⟩

theorem Memory.read_cons_same {a : Nat} {v : Byte} {rest : Memory} (h : rest.wfFrom (a + 1) = true) :
    (Memory.cons a v rest).read a = v := by
  rw [Memory.cons]
  split
  · rw [Memory.read_below h (by omega)]
    exact Eq.symm ‹_›
  · rw [Memory.read, if_pos rfl]

theorem Memory.read_cons_other {a k : Nat} {v : Byte} {rest : Memory} (h : k ≠ a) :
    (Memory.cons a v rest).read k = rest.read k := by
  rw [Memory.cons]
  split
  · rfl
  · rw [Memory.read, if_neg h]

/-- A write keeps the canonical form. -/
theorem Memory.write_wfFrom {m : Memory} {low a : Nat} {v : Byte} (h : m.wfFrom low = true) (hlow : low ≤ a)
    (ha : a < 4096) : (m.write a v).wfFrom low = true := by
  induction m generalizing low with
  | nil => exact Memory.cons_wf hlow ha rfl
  | cons cell rest ih =>
    obtain ⟨k, b⟩ := cell
    have hc := Memory.wfFrom_cons.mp h
    rw [Memory.write]
    split
    · exact Memory.cons_wf hlow ha (Memory.wfFrom_cons.mpr ⟨by omega, hc.2⟩)
    · split
      · subst_vars
        exact Memory.cons_wf hlow ha hc.2.2.2
      · exact Memory.wfFrom_cons.mpr ⟨hc.1, hc.2.1, hc.2.2.1, ih hc.2.2.2 (by omega)⟩

/-- A write keeps the canonical form. -/
theorem Memory.write_wf {m : Memory} {a : Nat} {v : Byte} (h : m.wf = true) (ha : a < 4096) :
    (m.write a v).wf = true :=
  Memory.write_wfFrom h (Nat.zero_le a) ha

/-- A read after a write to the same address gives the value written. -/
theorem Memory.read_write_same_from {m : Memory} {low a : Nat} {v : Byte} (h : m.wfFrom low = true) :
    (m.write a v).read a = v := by
  induction m generalizing low with
  | nil => exact Memory.read_cons_same rfl
  | cons cell rest ih =>
    obtain ⟨k, b⟩ := cell
    have hc := Memory.wfFrom_cons.mp h
    rw [Memory.write]
    split
    · exact Memory.read_cons_same (Memory.wfFrom_cons.mpr ⟨by omega, hc.2⟩)
    · split
      · subst_vars
        exact Memory.read_cons_same hc.2.2.2
      · rw [Memory.read, if_neg ‹_›]
        exact ih hc.2.2.2

/-- A read after a write to another address gives what it gave before. -/
theorem Memory.read_write_other {m : Memory} {a k : Nat} {v : Byte} (h : k ≠ a) :
    (m.write a v).read k = m.read k := by
  induction m with
  | nil => exact Memory.read_cons_other h
  | cons cell rest ih =>
    obtain ⟨j, b⟩ := cell
    rw [Memory.write]
    split
    · exact Memory.read_cons_other h
    · split
      · subst_vars
        rw [Memory.read_cons_other h, Memory.read, if_neg h]
      · rw [Memory.read, Memory.read, ih]

/-- Read after write, in one equation. -/
theorem Memory.read_write {m : Memory} (h : m.wf = true) (a k : Nat) (v : Byte) :
    (m.write a v).read k = if k = a then v else m.read k := by
  split
  · subst_vars
    exact Memory.read_write_same_from h
  · exact Memory.read_write_other ‹_›

/-- A sequence of writes keeps the canonical form. -/
theorem Memory.writeBytes_wf {m : Memory} {a : Nat} {bytes : List Byte} (h : m.wf = true)
    (ha : a + bytes.length ≤ 4096) : (m.writeBytes a bytes).wf = true := by
  induction bytes generalizing m a with
  | nil => exact h
  | cons b bs ih =>
    simp only [List.length_cons] at ha
    exact ih (Memory.write_wf h (by omega)) (by omega)

/-- Below the first byte of a sequence nothing changes. -/
theorem Memory.read_writeBytes_below {m : Memory} {a k : Nat} {bytes : List Byte} (hk : k < a) :
    (m.writeBytes a bytes).read k = m.read k := by
  induction bytes generalizing m a with
  | nil => rfl
  | cons b bs ih =>
    rw [Memory.writeBytes, ih (by omega), Memory.read_write_other (by omega)]

/-- A read outside a sequence of writes, whatever the memory. -/
theorem Memory.read_writeBytes_outside {m : Memory} {a k : Nat} {bytes : List Byte}
    (hk : k < a ∨ a + bytes.length ≤ k) : (m.writeBytes a bytes).read k = m.read k := by
  induction bytes generalizing m a with
  | nil => rfl
  | cons b bs ih =>
    simp only [List.length_cons] at hk
    rw [Memory.writeBytes, ih (by omega), Memory.read_write_other (by omega)]

/-- A read after a sequence of writes: the byte written there, or what it gave before. -/
theorem Memory.read_writeBytes {m : Memory} {a : Nat} {bytes : List Byte} (h : m.wf = true)
    (ha : a + bytes.length ≤ 4096) (k : Nat) :
    (m.writeBytes a bytes).read k =
      if hk : a ≤ k ∧ k - a < bytes.length then bytes[k - a]'hk.2 else m.read k := by
  induction bytes generalizing m a with
  | nil => simp [Memory.writeBytes]
  | cons b bs ih =>
    simp only [List.length_cons] at ha ⊢
    rw [Memory.writeBytes, ih (Memory.write_wf h (by omega)) (by omega), Memory.read_write h]
    by_cases hka : k = a
    · subst hka
      simp
    · by_cases hin : a + 1 ≤ k ∧ k - (a + 1) < bs.length
      · obtain ⟨j, rfl⟩ : ∃ j, k = a + 1 + j := ⟨k - (a + 1), by omega⟩
        have e : a + 1 + j - a = j + 1 := by omega
        rw [dif_pos hin, dif_pos ⟨by omega, by omega⟩]
        simp [e]
      · rw [dif_neg hin, dif_neg (by omega), if_neg hka]

theorem Memory.readBytes_length (m : Memory) (a n : Nat) : (m.readBytes a n).length = n := by
  induction n generalizing a with
  | zero => rfl
  | succ n ih => rw [Memory.readBytes, List.length_cons, ih]

theorem Memory.readBytes_getElem (m : Memory) (a n k : Nat) (h : k < (m.readBytes a n).length) :
    (m.readBytes a n)[k] = m.read (a + k) := by
  induction n generalizing a k with
  | zero => exact absurd h (Nat.not_lt_zero k)
  | succ n ih =>
    cases k with
    | zero => rfl
    | succ k =>
      have e : a + (k + 1) = a + 1 + k := by omega
      rw [e]
      exact ih (a + 1) k (by simpa [Memory.readBytes] using h)

/-- Memory after reset is canonical and zero everywhere (rule R38). -/
theorem reset_mem_wf : State.reset.mem.wf = true := rfl

theorem reset_mem_read (a : Nat) : State.reset.mem.read a = 0 := rfl

end Sys2Proof.Machine
end

