-- ==== Sys2Proof/Laws/State.lean ====
section
/-! SUPPORT. One lemma per field per update of State, each true by definition, so that no proof unfolds a record
update. -/

namespace Sys2Proof.Machine

/-! ### Taking a fault -/

@[simp] theorem raiseFault_mem (F : FaultRecord) (s : State) : (raiseFault F s).mem = s.mem := rfl
@[simp] theorem raiseFault_V (F : FaultRecord) (s : State) : (raiseFault F s).V = s.V := rfl
@[simp] theorem raiseFault_I (F : FaultRecord) (s : State) : (raiseFault F s).I = s.I := rfl
@[simp] theorem raiseFault_pc (F : FaultRecord) (s : State) : (raiseFault F s).pc = s.pc := rfl
@[simp] theorem raiseFault_suppress (F : FaultRecord) (s : State) : (raiseFault F s).suppress = s.suppress := rfl
@[simp] theorem raiseFault_stack (F : FaultRecord) (s : State) : (raiseFault F s).stack = s.stack := rfl
@[simp] theorem raiseFault_sp (F : FaultRecord) (s : State) : (raiseFault F s).sp = s.sp := rfl
@[simp] theorem raiseFault_delay (F : FaultRecord) (s : State) : (raiseFault F s).delay = s.delay := rfl
@[simp] theorem raiseFault_sound (F : FaultRecord) (s : State) : (raiseFault F s).sound = s.sound := rfl
@[simp] theorem raiseFault_fault (F : FaultRecord) (s : State) : (raiseFault F s).fault = some F := rfl
@[simp] theorem raiseFault_draws (F : FaultRecord) (s : State) : (raiseFault F s).draws = s.draws := rfl

/-! ### Writing a register -/

@[simp] theorem setReg_mem (s : State) (x : RegIdx) (v : Byte) : (s.setReg x v).mem = s.mem := rfl
@[simp] theorem setReg_V (s : State) (x : RegIdx) (v : Byte) : (s.setReg x v).V = s.V.set x.toNat v := rfl
@[simp] theorem setReg_I (s : State) (x : RegIdx) (v : Byte) : (s.setReg x v).I = s.I := rfl
@[simp] theorem setReg_pc (s : State) (x : RegIdx) (v : Byte) : (s.setReg x v).pc = s.pc := rfl
@[simp] theorem setReg_suppress (s : State) (x : RegIdx) (v : Byte) : (s.setReg x v).suppress = s.suppress := rfl
@[simp] theorem setReg_stack (s : State) (x : RegIdx) (v : Byte) : (s.setReg x v).stack = s.stack := rfl
@[simp] theorem setReg_sp (s : State) (x : RegIdx) (v : Byte) : (s.setReg x v).sp = s.sp := rfl
@[simp] theorem setReg_delay (s : State) (x : RegIdx) (v : Byte) : (s.setReg x v).delay = s.delay := rfl
@[simp] theorem setReg_sound (s : State) (x : RegIdx) (v : Byte) : (s.setReg x v).sound = s.sound := rfl
@[simp] theorem setReg_fault (s : State) (x : RegIdx) (v : Byte) : (s.setReg x v).fault = s.fault := rfl
@[simp] theorem setReg_draws (s : State) (x : RegIdx) (v : Byte) : (s.setReg x v).draws = s.draws := rfl

/-! ### Writing the flag register -/

@[simp] theorem setFlag_mem (s : State) (c : Bool) : (s.setFlag c).mem = s.mem := rfl
@[simp] theorem setFlag_V (s : State) (c : Bool) : (s.setFlag c).V = s.V.set flagReg.toNat (carryByte c) := rfl
@[simp] theorem setFlag_I (s : State) (c : Bool) : (s.setFlag c).I = s.I := rfl
@[simp] theorem setFlag_pc (s : State) (c : Bool) : (s.setFlag c).pc = s.pc := rfl
@[simp] theorem setFlag_suppress (s : State) (c : Bool) : (s.setFlag c).suppress = s.suppress := rfl
@[simp] theorem setFlag_stack (s : State) (c : Bool) : (s.setFlag c).stack = s.stack := rfl
@[simp] theorem setFlag_sp (s : State) (c : Bool) : (s.setFlag c).sp = s.sp := rfl
@[simp] theorem setFlag_delay (s : State) (c : Bool) : (s.setFlag c).delay = s.delay := rfl
@[simp] theorem setFlag_sound (s : State) (c : Bool) : (s.setFlag c).sound = s.sound := rfl
@[simp] theorem setFlag_fault (s : State) (c : Bool) : (s.setFlag c).fault = s.fault := rfl
@[simp] theorem setFlag_draws (s : State) (c : Bool) : (s.setFlag c).draws = s.draws := rfl

/-! ### Writing an 8-bit sum -/

@[simp] theorem writeSum8_mem (d : RegIdx) (r : Byte × Bool) (s : State) : (writeSum8 d r s).mem = s.mem := rfl
@[simp] theorem writeSum8_V (d : RegIdx) (r : Byte × Bool) (s : State) : (writeSum8 d r s).V = (s.V.set d.toNat r.1).set flagReg.toNat (carryByte r.2) := rfl
@[simp] theorem writeSum8_I (d : RegIdx) (r : Byte × Bool) (s : State) : (writeSum8 d r s).I = s.I := rfl
@[simp] theorem writeSum8_pc (d : RegIdx) (r : Byte × Bool) (s : State) : (writeSum8 d r s).pc = s.pc := rfl
@[simp] theorem writeSum8_suppress (d : RegIdx) (r : Byte × Bool) (s : State) : (writeSum8 d r s).suppress = s.suppress := rfl
@[simp] theorem writeSum8_stack (d : RegIdx) (r : Byte × Bool) (s : State) : (writeSum8 d r s).stack = s.stack := rfl
@[simp] theorem writeSum8_sp (d : RegIdx) (r : Byte × Bool) (s : State) : (writeSum8 d r s).sp = s.sp := rfl
@[simp] theorem writeSum8_delay (d : RegIdx) (r : Byte × Bool) (s : State) : (writeSum8 d r s).delay = s.delay := rfl
@[simp] theorem writeSum8_sound (d : RegIdx) (r : Byte × Bool) (s : State) : (writeSum8 d r s).sound = s.sound := rfl
@[simp] theorem writeSum8_fault (d : RegIdx) (r : Byte × Bool) (s : State) : (writeSum8 d r s).fault = s.fault := rfl
@[simp] theorem writeSum8_draws (d : RegIdx) (r : Byte × Bool) (s : State) : (writeSum8 d r s).draws = s.draws := rfl

/-! ### Writing a 16-bit sum -/

@[simp] theorem writeSum16_mem (r : Word × Bool) (s : State) : (writeSum16 r s).mem = s.mem := rfl
@[simp] theorem writeSum16_V (r : Word × Bool) (s : State) : (writeSum16 r s).V = s.V.set flagReg.toNat (carryByte r.2) := rfl
@[simp] theorem writeSum16_I (r : Word × Bool) (s : State) : (writeSum16 r s).I = r.1 := rfl
@[simp] theorem writeSum16_pc (r : Word × Bool) (s : State) : (writeSum16 r s).pc = s.pc := rfl
@[simp] theorem writeSum16_suppress (r : Word × Bool) (s : State) : (writeSum16 r s).suppress = s.suppress := rfl
@[simp] theorem writeSum16_stack (r : Word × Bool) (s : State) : (writeSum16 r s).stack = s.stack := rfl
@[simp] theorem writeSum16_sp (r : Word × Bool) (s : State) : (writeSum16 r s).sp = s.sp := rfl
@[simp] theorem writeSum16_delay (r : Word × Bool) (s : State) : (writeSum16 r s).delay = s.delay := rfl
@[simp] theorem writeSum16_sound (r : Word × Bool) (s : State) : (writeSum16 r s).sound = s.sound := rfl
@[simp] theorem writeSum16_fault (r : Word × Bool) (s : State) : (writeSum16 r s).fault = s.fault := rfl
@[simp] theorem writeSum16_draws (r : Word × Bool) (s : State) : (writeSum16 r s).draws = s.draws := rfl

/-! ### Redirecting control flow -/

@[simp] theorem redirect_mem (target : Word) (s : State) : (redirect target s).mem = s.mem := rfl
@[simp] theorem redirect_V (target : Word) (s : State) : (redirect target s).V = s.V := rfl
@[simp] theorem redirect_I (target : Word) (s : State) : (redirect target s).I = s.I := rfl
@[simp] theorem redirect_pc (target : Word) (s : State) : (redirect target s).pc = target := rfl
@[simp] theorem redirect_suppress (target : Word) (s : State) : (redirect target s).suppress = true := rfl
@[simp] theorem redirect_stack (target : Word) (s : State) : (redirect target s).stack = s.stack := rfl
@[simp] theorem redirect_sp (target : Word) (s : State) : (redirect target s).sp = s.sp := rfl
@[simp] theorem redirect_delay (target : Word) (s : State) : (redirect target s).delay = s.delay := rfl
@[simp] theorem redirect_sound (target : Word) (s : State) : (redirect target s).sound = s.sound := rfl
@[simp] theorem redirect_fault (target : Word) (s : State) : (redirect target s).fault = s.fault := rfl
@[simp] theorem redirect_draws (target : Word) (s : State) : (redirect target s).draws = s.draws := rfl

/-! ### The advance -/

@[simp] theorem advance_mem (s : State) : (advance s).mem = s.mem := rfl
@[simp] theorem advance_V (s : State) : (advance s).V = s.V := rfl
@[simp] theorem advance_I (s : State) : (advance s).I = s.I := rfl
@[simp] theorem advance_pc (s : State) : (advance s).pc = if s.suppress then s.pc else s.pc + pcStep := rfl
@[simp] theorem advance_suppress (s : State) : (advance s).suppress = false := rfl
@[simp] theorem advance_stack (s : State) : (advance s).stack = s.stack := rfl
@[simp] theorem advance_sp (s : State) : (advance s).sp = s.sp := rfl
@[simp] theorem advance_delay (s : State) : (advance s).delay = s.delay := rfl
@[simp] theorem advance_sound (s : State) : (advance s).sound = s.sound := rfl
@[simp] theorem advance_fault (s : State) : (advance s).fault = s.fault := rfl
@[simp] theorem advance_draws (s : State) : (advance s).draws = s.draws := rfl

/-! ### Restarting -/

@[simp] theorem restart_mem (s : State) : (restart s).mem = State.reset.mem := rfl
@[simp] theorem restart_V (s : State) : (restart s).V = State.reset.V := rfl
@[simp] theorem restart_I (s : State) : (restart s).I = State.reset.I := rfl
@[simp] theorem restart_pc (s : State) : (restart s).pc = State.reset.pc := rfl
@[simp] theorem restart_suppress (s : State) : (restart s).suppress = State.reset.suppress := rfl
@[simp] theorem restart_stack (s : State) : (restart s).stack = State.reset.stack := rfl
@[simp] theorem restart_sp (s : State) : (restart s).sp = State.reset.sp := rfl
@[simp] theorem restart_delay (s : State) : (restart s).delay = State.reset.delay := rfl
@[simp] theorem restart_sound (s : State) : (restart s).sound = State.reset.sound := rfl
@[simp] theorem restart_fault (s : State) : (restart s).fault = State.reset.fault := rfl
@[simp] theorem restart_draws (s : State) : (restart s).draws = s.draws := rfl

/-! ### A draw of the random source -/

@[simp] theorem randomDraw_mem (s : State) : ((randomDraw s).2).mem = s.mem := rfl
@[simp] theorem randomDraw_V (s : State) : ((randomDraw s).2).V = s.V := rfl
@[simp] theorem randomDraw_I (s : State) : ((randomDraw s).2).I = s.I := rfl
@[simp] theorem randomDraw_pc (s : State) : ((randomDraw s).2).pc = s.pc := rfl
@[simp] theorem randomDraw_suppress (s : State) : ((randomDraw s).2).suppress = s.suppress := rfl
@[simp] theorem randomDraw_stack (s : State) : ((randomDraw s).2).stack = s.stack := rfl
@[simp] theorem randomDraw_sp (s : State) : ((randomDraw s).2).sp = s.sp := rfl
@[simp] theorem randomDraw_delay (s : State) : ((randomDraw s).2).delay = s.delay := rfl
@[simp] theorem randomDraw_sound (s : State) : ((randomDraw s).2).sound = s.sound := rfl
@[simp] theorem randomDraw_fault (s : State) : ((randomDraw s).2).fault = s.fault := rfl
@[simp] theorem randomDraw_draws (s : State) : ((randomDraw s).2).draws = s.draws + 1 := rfl

/-! ### A skip -/

@[simp] theorem skipIf_mem (c : Bool) (s : State) : (skipIf c s).mem = s.mem := by
  cases c <;> rfl
@[simp] theorem skipIf_V (c : Bool) (s : State) : (skipIf c s).V = s.V := by
  cases c <;> rfl
@[simp] theorem skipIf_I (c : Bool) (s : State) : (skipIf c s).I = s.I := by
  cases c <;> rfl
@[simp] theorem skipIf_pc (c : Bool) (s : State) : (skipIf c s).pc = if c then s.pc + pcStep else s.pc := by
  cases c <;> rfl
@[simp] theorem skipIf_suppress (c : Bool) (s : State) : (skipIf c s).suppress = s.suppress := by
  cases c <;> rfl
@[simp] theorem skipIf_stack (c : Bool) (s : State) : (skipIf c s).stack = s.stack := by
  cases c <;> rfl
@[simp] theorem skipIf_sp (c : Bool) (s : State) : (skipIf c s).sp = s.sp := by
  cases c <;> rfl
@[simp] theorem skipIf_delay (c : Bool) (s : State) : (skipIf c s).delay = s.delay := by
  cases c <;> rfl
@[simp] theorem skipIf_sound (c : Bool) (s : State) : (skipIf c s).sound = s.sound := by
  cases c <;> rfl
@[simp] theorem skipIf_fault (c : Bool) (s : State) : (skipIf c s).fault = s.fault := by
  cases c <;> rfl
@[simp] theorem skipIf_draws (c : Bool) (s : State) : (skipIf c s).draws = s.draws := by
  cases c <;> rfl

end Sys2Proof.Machine
end

