-- ==== Sys2Proof/Laws/Ops.lean ====
section
/-! SUPPORT. What each shared operation can do, said once: registers, checked memory accesses, the call stack, the end of
an instruction, the alu. -/

namespace Sys2Proof.Machine

/-! ### Registers -/

/-- A register read after a register write (rules R13, R22). -/
@[simp] theorem reg_setReg (s : State) (x k : RegIdx) (v : Byte) :
    (s.setReg x v).reg k = if k = x then v else s.reg k := by
  simp only [State.reg, State.setReg, Vector.getElem_set]
  by_cases h : k = x
  · simp [h]
  · have hne : x.toNat ≠ k.toNat := fun e => h (BitVec.eq_of_toNat_eq e.symm)
    simp [h, hne]

/-- Only V changes in a register write. -/
theorem setReg_eq (s : State) (x : RegIdx) (v : Byte) : s.setReg x v = { s with V := (s.setReg x v).V } := rfl

@[simp] theorem reg_setFlag (s : State) (c : Bool) (k : RegIdx) :
    (s.setFlag c).reg k = if k = 15 then carryByte c else s.reg k :=
  reg_setReg s flagReg k (carryByte c)

/-- The flag register ends as the carry, also when it is the destination (rule R140). -/
@[simp] theorem reg_writeSum8 (d k : RegIdx) (r : Byte × Bool) (s : State) :
    (writeSum8 d r s).reg k = if k = 15 then carryByte r.2 else if k = d then r.1 else s.reg k := by
  rw [writeSum8, reg_setFlag, reg_setReg]

theorem writeSum8_eq (d : RegIdx) (r : Byte × Bool) (s : State) :
    writeSum8 d r s = { s with V := (writeSum8 d r s).V } := rfl

@[simp] theorem reg_writeSum16 (k : RegIdx) (r : Word × Bool) (s : State) :
    (writeSum16 r s).reg k = if k = 15 then carryByte r.2 else s.reg k := by
  rw [writeSum16, reg_setFlag]
  rfl

theorem writeSum16_eq (r : Word × Bool) (s : State) :
    writeSum16 r s = { s with V := (writeSum16 r s).V, I := (writeSum16 r s).I } := rfl

/-- A sequence of register writes changes only V. -/
theorem setRegsFrom_eq (k : Nat) (bytes : List Byte) (s : State) :
    setRegsFrom k bytes s = { s with V := (setRegsFrom k bytes s).V } := by
  induction bytes generalizing k s with
  | nil => rfl
  | cons b bs ih =>
    rw [setRegsFrom, ih]
    rfl

/-- A register read after a sequence of register writes (rule R167). -/
theorem reg_setRegsFrom (k : Nat) (bytes : List Byte) (s : State) (j : RegIdx) (hk : k + bytes.length ≤ 16) :
    (setRegsFrom k bytes s).reg j =
      if h : k ≤ j.toNat ∧ j.toNat - k < bytes.length then bytes[j.toNat - k]'h.2 else s.reg j := by
  induction bytes generalizing k s with
  | nil => simp [setRegsFrom]
  | cons b bs ih =>
    simp only [List.length_cons] at hk ⊢
    rw [setRegsFrom, ih (k + 1) _ (by omega), reg_setReg]
    have hkv : (BitVec.ofNat 4 k).toNat = k := by
      rw [BitVec.toNat_ofNat]
      exact Nat.mod_eq_of_lt (by omega)
    by_cases hj : j.toNat = k
    · have hjk : j = BitVec.ofNat 4 k := BitVec.eq_of_toNat_eq (by rw [hkv, hj])
      rw [dif_neg (by omega), if_pos hjk, dif_pos (by omega)]
      simp [hj]
    · have hjk : j ≠ BitVec.ofNat 4 k := fun e => hj (by rw [e, hkv])
      by_cases hin : k + 1 ≤ j.toNat ∧ j.toNat - (k + 1) < bs.length
      · have e : j.toNat - k = j.toNat - (k + 1) + 1 := by omega
        rw [dif_pos hin, dif_pos (by omega)]
        simp [e]
      · rw [dif_neg hin, dif_neg (by omega), if_neg hjk]

theorem regsFrom_length (s : State) (k n : Nat) : (regsFrom s k n).length = n := by
  induction n generalizing k with
  | zero => rfl
  | succ n ih => rw [regsFrom, List.length_cons, ih]

theorem regsFrom_getElem (s : State) (k n j : Nat) (h : j < (regsFrom s k n).length) :
    (regsFrom s k n)[j] = s.reg (BitVec.ofNat 4 (k + j)) := by
  induction n generalizing k j with
  | zero => exact absurd h (Nat.not_lt_zero j)
  | succ n ih =>
    cases j with
    | zero => rfl
    | succ j =>
      have e : k + (j + 1) = k + 1 + j := by omega
      rw [e]
      exact ih (k + 1) j (by simpa [regsFrom] using h)

/-- "upto" x names x + 1 registers (rule R166). -/
theorem uptoRegs_length (s : State) (x : RegIdx) : (uptoRegs s x).length = x.toNat + 1 := regsFrom_length s 0 _

theorem uptoRegs_getElem (s : State) (x : RegIdx) (j : Nat) (h : j < (uptoRegs s x).length) :
    (uptoRegs s x)[j] = s.reg (BitVec.ofNat 4 j) := by
  have e := regsFrom_getElem s 0 (uptoCount x) j h
  rwa [Nat.zero_add] at e

theorem bcdDigits_length (v : Byte) : (bcdDigits v).length = 3 := rfl

/-! ### Checked accesses (rules R53, R54, R59) -/

/-- An access that ends at or below 4095 passes the check. -/
theorem rangeFault_none {a n : Nat} {s : State} (h : a + n ≤ 4096) : rangeFault a n s = none := by
  rw [rangeFault, if_neg (by omega)]

/-- An access of at least one byte that ends above 4095 faults, at its lowest address above 4095. -/
theorem rangeFault_some {a n : Nat} {s : State} (hn : 0 < n) (h : 4096 < a + n) :
    rangeFault a n s = some (.outOfBounds .data (max a 4096) s.pc) := by
  rw [rangeFault, if_pos (by omega)]

theorem memRead_ok {a : Nat} {s : State} (h : a ≤ 4095) : memRead a s = .ok (s.mem.read a) := by
  rw [memRead, if_neg (by omega)]

theorem memWrite_ok {a : Nat} {v : Byte} {s : State} (h : a ≤ 4095) :
    memWrite a v s = .ok { s with mem := s.mem.write a v } := by
  rw [memWrite, if_neg (by omega)]

theorem storeSeq_ok {a : Nat} {bytes : List Byte} {s : State} (h : a + bytes.length ≤ 4096) :
    storeSeq a bytes s = .ok { s with mem := s.mem.writeBytes a bytes } := by
  induction bytes generalizing a s with
  | nil => rfl
  | cons b bs ih =>
    simp only [List.length_cons] at h
    rw [storeSeq, memWrite_ok (by omega)]
    exact ih (by omega)

theorem loadSeq_ok {a n : Nat} {s : State} (h : a + n ≤ 4096) : loadSeq a n s = .ok (s.mem.readBytes a n) := by
  induction n generalizing a with
  | zero => rfl
  | succ n ih =>
    rw [loadSeq, memRead_ok (by omega)]
    simp [ih (a := a + 1) (by omega), Except.map, Memory.readBytes]

/-- A store that fits stores every byte and changes only memory. -/
theorem storeBytes_ok {a : Nat} {bytes : List Byte} {s : State} (h : a + bytes.length ≤ 4096) :
    storeBytes a bytes s = .ok { s with mem := s.mem.writeBytes a bytes } := by
  simp only [storeBytes, rangeFault_none h]
  exact storeSeq_ok h

/-- A store that does not fit faults and stores nothing. -/
theorem storeBytes_fault {a : Nat} {bytes : List Byte} {s : State} (hn : 0 < bytes.length)
    (h : 4096 < a + bytes.length) :
    storeBytes a bytes s = .error (.outOfBounds .data (max a 4096) s.pc) := by
  simp only [storeBytes, rangeFault_some hn h]

theorem loadBytes_ok {a n : Nat} {s : State} (h : a + n ≤ 4096) :
    loadBytes a n s = .ok (s.mem.readBytes a n) := by
  simp only [loadBytes, rangeFault_none h]
  exact loadSeq_ok h

theorem loadBytes_fault {a n : Nat} {s : State} (hn : 0 < n) (h : 4096 < a + n) :
    loadBytes a n s = .error (.outOfBounds .data (max a 4096) s.pc) := by
  simp only [loadBytes, rangeFault_some hn h]

/-- Everything a store can do: it stores every byte, or faults. -/
theorem storeBytes_cases {a : Nat} {bytes : List Byte} (s : State) (hn : 0 < bytes.length) :
    (a + bytes.length ≤ 4096 ∧ storeBytes a bytes s = .ok { s with mem := s.mem.writeBytes a bytes }) ∨
      (4096 < a + bytes.length ∧ storeBytes a bytes s = .error (.outOfBounds .data (max a 4096) s.pc)) := by
  by_cases h : a + bytes.length ≤ 4096
  · exact .inl ⟨h, storeBytes_ok h⟩
  · exact .inr ⟨by omega, storeBytes_fault hn (by omega)⟩

/-- Everything a load can do. -/
theorem loadBytes_cases {a n : Nat} (s : State) (hn : 0 < n) :
    (a + n ≤ 4096 ∧ loadBytes a n s = .ok (s.mem.readBytes a n)) ∨
      (4096 < a + n ∧ loadBytes a n s = .error (.outOfBounds .data (max a 4096) s.pc)) := by
  by_cases h : a + n ≤ 4096
  · exact .inl ⟨h, loadBytes_ok h⟩
  · exact .inr ⟨by omega, loadBytes_fault hn (by omega)⟩

/-! ### Call stack (rules R32, R33) -/

theorem push_ok {v : Word} {s : State} (h : s.sp ≠ 15) :
    push v s = .ok { s with sp := s.sp + 1, stack := s.stack.set (s.sp + 1).val v } := by
  rw [push, if_neg h]

theorem push_fault {v : Word} {s : State} (h : s.sp = 15) : push v s = .error (.stackFault .overflow s.pc) := by
  rw [push, if_pos h]

theorem pop_ok {s : State} (h : s.sp ≠ 0) : pop s = .ok (s.stack[s.sp], { s with sp := s.sp - 1 }) := by
  rw [pop, if_neg h]

theorem pop_fault {s : State} (h : s.sp = 0) : pop s = .error (.stackFault .underflow s.pc) := by
  rw [pop, if_pos h]

/-- Below 15 a push raises the depth by one. -/
theorem sp_succ_val {sp : Fin 16} (h : sp ≠ 15) : (sp + 1).val = sp.val + 1 := by
  revert sp
  decide

/-- Above 0 a pop lowers the depth by one. -/
theorem sp_pred_val {sp : Fin 16} (h : sp ≠ 0) : (sp - 1).val + 1 = sp.val := by
  revert sp
  decide

/-! ### The end of an instruction -/

@[simp] theorem settle_ok (s t : State) : settle s (.ok t) = .next t := rfl

@[simp] theorem settle_error (s : State) (F : FaultRecord) : settle s (.error F) = .next (raiseFault F s) := rfl

/-- A settled instruction always answers a next state. -/
theorem settle_next (s : State) (r : Except FaultRecord State) : ∃ t, settle s r = .next t := by
  cases r with
  | error F => exact ⟨_, rfl⟩
  | ok t => exact ⟨t, rfl⟩

theorem finish_running {t : State} (h : t.fault = none) : finish t = advance t := by
  simp [finish, h]

theorem finish_faulted {t : State} {F : FaultRecord} (h : t.fault = some F) : finish t = t := by
  simp [finish, h]

/-! ### The alu (rules R140, R141) -/

theorem add8_result (a b : Byte) : (add8 a b).1 = a + b := by
  apply BitVec.eq_of_toNat_eq
  simp [add8, BitVec.toNat_add]

theorem add8_result_toNat (a b : Byte) : (add8 a b).1.toNat = (a.toNat + b.toNat) % 256 := by
  simp [add8]

theorem add8_carry (a b : Byte) : (add8 a b).2 = decide (a.toNat + b.toNat > 255) := rfl

theorem add16_result_toNat (a : Word) (b : Byte) : (add16 a b).1.toNat = (a.toNat + b.toNat) % 65536 := by
  simp [add16]

theorem add16_carry (a : Word) (b : Byte) : (add16 a b).2 = decide (a.toNat + b.toNat > 65535) := rfl

/-! ### Operands and the call stack's entries -/

/-- An address operand keeps its value (rule R72). -/
@[simp] theorem addressOperand_toNat (nnn : Addr12) : (addressOperand nnn).toNat = nnn.toNat := by
  have := nnn.isLt
  simp [addressOperand]
  omega

/-- A literal operand keeps its value (rules R162, R163). -/
@[simp] theorem literalOperand_toNat (x : Nibble) : (literalOperand x).toNat = x.toNat := by
  have := x.isLt
  simp [literalOperand]
  omega

/-- A stack entry read after an entry is written. -/
theorem stack_set (stack : Vector Word 16) (k j : Fin 16) (w : Word) :
    (stack.set k.val w)[j] = if j = k then w else stack[j] := by
  simp [Vector.getElem_set, Fin.ext_iff, eq_comm]

end Sys2Proof.Machine
end

