-- ==== Sys2Proof/Laws/PerInstr.lean ====
section
/-! SUPPORT. Per instruction: its word has the fixed bits that its row of the opcode map gives (mask and match of rule
R75 of 30_encoding.md, written here from opcode_table.json). -/

namespace Sys2Proof.Laws.FixedBits

/-- The mask of the instruction's row (rule R75). -/
def rowMask (i : Instr) : Opcode :=
  match i with
  | .clearScreen => 0xFFFF
  | .ret => 0xFFFF
  | .systemCall _ => 0xF000
  | .jump _ => 0xF000
  | .call _ => 0xF000
  | .skipIfEqualByte _ _ => 0xF000
  | .skipIfNotEqualByte _ _ => 0xF000
  | .skipIfRegistersEqual _ _ => 0xF00F
  | .loadByte _ _ => 0xF000
  | .addByte _ _ => 0xF000
  | .loadRegister _ _ => 0xF00F
  | .orRegister _ _ => 0xF00F
  | .andRegister _ _ => 0xF00F
  | .xorRegister _ _ => 0xF00F
  | .addRegister _ _ => 0xF00F
  | .subtractRegister _ _ => 0xF00F
  | .shiftRight _ _ => 0xF00F
  | .subtractReverse _ _ => 0xF00F
  | .shiftLeft _ _ => 0xF00F
  | .skipIfRegistersNotEqual _ _ => 0xF00F
  | .loadImmediate _ => 0xF000
  | .jumpOffset _ => 0xF000
  | .random _ _ => 0xF000
  | .draw _ _ _ => 0xF000
  | .skipIfKey _ => 0xF0FF
  | .skipIfNotKey _ => 0xF0FF
  | .readDelay _ => 0xF0FF
  | .waitKey _ => 0xF0FF
  | .writeDelay _ => 0xF0FF
  | .writeSound _ => 0xF0FF
  | .addToAddress _ => 0xF0FF
  | .loadFontAddress _ => 0xF0FF
  | .storeBCD _ => 0xF0FF
  | .storeRegisters _ => 0xF0FF
  | .loadRegisters _ => 0xF0FF

/-- The match of the instruction's row (rule R75). -/
def rowMatch (i : Instr) : Opcode :=
  match i with
  | .clearScreen => 0x00E0
  | .ret => 0x00EE
  | .systemCall _ => 0x0000
  | .jump _ => 0x1000
  | .call _ => 0x2000
  | .skipIfEqualByte _ _ => 0x3000
  | .skipIfNotEqualByte _ _ => 0x4000
  | .skipIfRegistersEqual _ _ => 0x5000
  | .loadByte _ _ => 0x6000
  | .addByte _ _ => 0x7000
  | .loadRegister _ _ => 0x8000
  | .orRegister _ _ => 0x8001
  | .andRegister _ _ => 0x8002
  | .xorRegister _ _ => 0x8003
  | .addRegister _ _ => 0x8004
  | .subtractRegister _ _ => 0x8005
  | .shiftRight _ _ => 0x8006
  | .subtractReverse _ _ => 0x8007
  | .shiftLeft _ _ => 0x800E
  | .skipIfRegistersNotEqual _ _ => 0x9000
  | .loadImmediate _ => 0xA000
  | .jumpOffset _ => 0xB000
  | .random _ _ => 0xC000
  | .draw _ _ _ => 0xD000
  | .skipIfKey _ => 0xE09E
  | .skipIfNotKey _ => 0xE0A1
  | .readDelay _ => 0xF007
  | .waitKey _ => 0xF00A
  | .writeDelay _ => 0xF015
  | .writeSound _ => 0xF018
  | .addToAddress _ => 0xF01E
  | .loadFontAddress _ => 0xF029
  | .storeBCD _ => 0xF033
  | .storeRegisters _ => 0xF055
  | .loadRegisters _ => 0xF065

/-- Under its row's mask an instruction's word is its row's match. -/
def Statement (i : Instr) : Prop := encode i &&& rowMask i = rowMatch i

theorem clearScreen : Statement .clearScreen :=
  mask_FFFF 0x00E0

theorem ret : Statement .ret :=
  mask_FFFF 0x00EE

theorem systemCall (nnn : Addr12) : Statement (.systemCall nnn) :=
  (mask_F000 (encodeA 0 nnn) 0).mpr (highNibble_encodeA 0 nnn)

theorem jump (nnn : Addr12) : Statement (.jump nnn) :=
  (mask_F000 (encodeA 1 nnn) 1).mpr (highNibble_encodeA 1 nnn)

theorem call (nnn : Addr12) : Statement (.call nnn) :=
  (mask_F000 (encodeA 2 nnn) 2).mpr (highNibble_encodeA 2 nnn)

theorem skipIfEqualByte (x : RegIdx) (kk : Byte) : Statement (.skipIfEqualByte x kk) :=
  (mask_F000 (encodeXK 3 x kk) 3).mpr (highNibble_encodeXK 3 x kk)

theorem skipIfNotEqualByte (x : RegIdx) (kk : Byte) : Statement (.skipIfNotEqualByte x kk) :=
  (mask_F000 (encodeXK 4 x kk) 4).mpr (highNibble_encodeXK 4 x kk)

theorem skipIfRegistersEqual (x : RegIdx) (y : RegIdx) : Statement (.skipIfRegistersEqual x y) :=
  (mask_F00F (encodeXYN 5 x y 0) 5 0).mpr ⟨highNibble_encodeXYN 5 x y 0, nField_encodeXYN 5 x y 0⟩

theorem loadByte (x : RegIdx) (kk : Byte) : Statement (.loadByte x kk) :=
  (mask_F000 (encodeXK 6 x kk) 6).mpr (highNibble_encodeXK 6 x kk)

theorem addByte (x : RegIdx) (kk : Byte) : Statement (.addByte x kk) :=
  (mask_F000 (encodeXK 7 x kk) 7).mpr (highNibble_encodeXK 7 x kk)

theorem loadRegister (x : RegIdx) (y : RegIdx) : Statement (.loadRegister x y) :=
  (mask_F00F (encodeXYN 8 x y 0) 8 0).mpr ⟨highNibble_encodeXYN 8 x y 0, nField_encodeXYN 8 x y 0⟩

theorem orRegister (x : RegIdx) (y : RegIdx) : Statement (.orRegister x y) :=
  (mask_F00F (encodeXYN 8 x y 1) 8 1).mpr ⟨highNibble_encodeXYN 8 x y 1, nField_encodeXYN 8 x y 1⟩

theorem andRegister (x : RegIdx) (y : RegIdx) : Statement (.andRegister x y) :=
  (mask_F00F (encodeXYN 8 x y 2) 8 2).mpr ⟨highNibble_encodeXYN 8 x y 2, nField_encodeXYN 8 x y 2⟩

theorem xorRegister (x : RegIdx) (y : RegIdx) : Statement (.xorRegister x y) :=
  (mask_F00F (encodeXYN 8 x y 3) 8 3).mpr ⟨highNibble_encodeXYN 8 x y 3, nField_encodeXYN 8 x y 3⟩

theorem addRegister (x : RegIdx) (y : RegIdx) : Statement (.addRegister x y) :=
  (mask_F00F (encodeXYN 8 x y 4) 8 4).mpr ⟨highNibble_encodeXYN 8 x y 4, nField_encodeXYN 8 x y 4⟩

theorem subtractRegister (x : RegIdx) (y : RegIdx) : Statement (.subtractRegister x y) :=
  (mask_F00F (encodeXYN 8 x y 5) 8 5).mpr ⟨highNibble_encodeXYN 8 x y 5, nField_encodeXYN 8 x y 5⟩

theorem shiftRight (x : RegIdx) (y : RegIdx) : Statement (.shiftRight x y) :=
  (mask_F00F (encodeXYN 8 x y 6) 8 6).mpr ⟨highNibble_encodeXYN 8 x y 6, nField_encodeXYN 8 x y 6⟩

theorem subtractReverse (x : RegIdx) (y : RegIdx) : Statement (.subtractReverse x y) :=
  (mask_F00F (encodeXYN 8 x y 7) 8 7).mpr ⟨highNibble_encodeXYN 8 x y 7, nField_encodeXYN 8 x y 7⟩

theorem shiftLeft (x : RegIdx) (y : RegIdx) : Statement (.shiftLeft x y) :=
  (mask_F00F (encodeXYN 8 x y 14) 8 14).mpr ⟨highNibble_encodeXYN 8 x y 14, nField_encodeXYN 8 x y 14⟩

theorem skipIfRegistersNotEqual (x : RegIdx) (y : RegIdx) : Statement (.skipIfRegistersNotEqual x y) :=
  (mask_F00F (encodeXYN 9 x y 0) 9 0).mpr ⟨highNibble_encodeXYN 9 x y 0, nField_encodeXYN 9 x y 0⟩

theorem loadImmediate (nnn : Addr12) : Statement (.loadImmediate nnn) :=
  (mask_F000 (encodeA 10 nnn) 10).mpr (highNibble_encodeA 10 nnn)

theorem jumpOffset (nnn : Addr12) : Statement (.jumpOffset nnn) :=
  (mask_F000 (encodeA 11 nnn) 11).mpr (highNibble_encodeA 11 nnn)

theorem random (x : RegIdx) (kk : Byte) : Statement (.random x kk) :=
  (mask_F000 (encodeXK 12 x kk) 12).mpr (highNibble_encodeXK 12 x kk)

theorem draw (x : RegIdx) (y : RegIdx) (n : Nibble) : Statement (.draw x y n) :=
  (mask_F000 (encodeXYN 13 x y n) 13).mpr (highNibble_encodeXYN 13 x y n)

theorem skipIfKey (x : RegIdx) : Statement (.skipIfKey x) :=
  (mask_F0FF (encodeXK 14 x 0x9e) 14 0x9e).mpr ⟨highNibble_encodeXK 14 x 0x9e, kkField_encodeXK 14 x 0x9e⟩

theorem skipIfNotKey (x : RegIdx) : Statement (.skipIfNotKey x) :=
  (mask_F0FF (encodeXK 14 x 0xa1) 14 0xa1).mpr ⟨highNibble_encodeXK 14 x 0xa1, kkField_encodeXK 14 x 0xa1⟩

theorem readDelay (x : RegIdx) : Statement (.readDelay x) :=
  (mask_F0FF (encodeXK 15 x 0x7) 15 0x7).mpr ⟨highNibble_encodeXK 15 x 0x7, kkField_encodeXK 15 x 0x7⟩

theorem waitKey (x : RegIdx) : Statement (.waitKey x) :=
  (mask_F0FF (encodeXK 15 x 0xa) 15 0xa).mpr ⟨highNibble_encodeXK 15 x 0xa, kkField_encodeXK 15 x 0xa⟩

theorem writeDelay (x : RegIdx) : Statement (.writeDelay x) :=
  (mask_F0FF (encodeXK 15 x 0x15) 15 0x15).mpr ⟨highNibble_encodeXK 15 x 0x15, kkField_encodeXK 15 x 0x15⟩

theorem writeSound (x : RegIdx) : Statement (.writeSound x) :=
  (mask_F0FF (encodeXK 15 x 0x18) 15 0x18).mpr ⟨highNibble_encodeXK 15 x 0x18, kkField_encodeXK 15 x 0x18⟩

theorem addToAddress (x : RegIdx) : Statement (.addToAddress x) :=
  (mask_F0FF (encodeXK 15 x 0x1e) 15 0x1e).mpr ⟨highNibble_encodeXK 15 x 0x1e, kkField_encodeXK 15 x 0x1e⟩

theorem loadFontAddress (x : RegIdx) : Statement (.loadFontAddress x) :=
  (mask_F0FF (encodeXK 15 x 0x29) 15 0x29).mpr ⟨highNibble_encodeXK 15 x 0x29, kkField_encodeXK 15 x 0x29⟩

theorem storeBCD (x : RegIdx) : Statement (.storeBCD x) :=
  (mask_F0FF (encodeXK 15 x 0x33) 15 0x33).mpr ⟨highNibble_encodeXK 15 x 0x33, kkField_encodeXK 15 x 0x33⟩

theorem storeRegisters (x : RegIdx) : Statement (.storeRegisters x) :=
  (mask_F0FF (encodeXK 15 x 0x55) 15 0x55).mpr ⟨highNibble_encodeXK 15 x 0x55, kkField_encodeXK 15 x 0x55⟩

theorem loadRegisters (x : RegIdx) : Statement (.loadRegisters x) :=
  (mask_F0FF (encodeXK 15 x 0x65) 15 0x65).mpr ⟨highNibble_encodeXK 15 x 0x65, kkField_encodeXK 15 x 0x65⟩

/-- Every instruction, by its own lemma. -/
theorem all (i : Instr) : Statement i := by
  cases i with
  | clearScreen => exact clearScreen
  | ret => exact ret
  | systemCall nnn => exact systemCall nnn
  | jump nnn => exact jump nnn
  | call nnn => exact call nnn
  | skipIfEqualByte x kk => exact skipIfEqualByte x kk
  | skipIfNotEqualByte x kk => exact skipIfNotEqualByte x kk
  | skipIfRegistersEqual x y => exact skipIfRegistersEqual x y
  | loadByte x kk => exact loadByte x kk
  | addByte x kk => exact addByte x kk
  | loadRegister x y => exact loadRegister x y
  | orRegister x y => exact orRegister x y
  | andRegister x y => exact andRegister x y
  | xorRegister x y => exact xorRegister x y
  | addRegister x y => exact addRegister x y
  | subtractRegister x y => exact subtractRegister x y
  | shiftRight x y => exact shiftRight x y
  | subtractReverse x y => exact subtractReverse x y
  | shiftLeft x y => exact shiftLeft x y
  | skipIfRegistersNotEqual x y => exact skipIfRegistersNotEqual x y
  | loadImmediate nnn => exact loadImmediate nnn
  | jumpOffset nnn => exact jumpOffset nnn
  | random x kk => exact random x kk
  | draw x y n => exact draw x y n
  | skipIfKey x => exact skipIfKey x
  | skipIfNotKey x => exact skipIfNotKey x
  | readDelay x => exact readDelay x
  | waitKey x => exact waitKey x
  | writeDelay x => exact writeDelay x
  | writeSound x => exact writeSound x
  | addToAddress x => exact addToAddress x
  | loadFontAddress x => exact loadFontAddress x
  | storeBCD x => exact storeBCD x
  | storeRegisters x => exact storeRegisters x
  | loadRegisters x => exact loadRegisters x

end Sys2Proof.Laws.FixedBits
end

