-- ==== Sys2Proof/Laws/Step.lean ====
section
/-! SUPPORT. What one step can do, said once (rules R100 to R108 of 40_fetch_execute.md). -/

namespace Sys2Proof.Machine

theorem stepWith_running {cfg : Config} {s : State} (h : Running s) : stepWith cfg s = cycle cfg s := by
  simp [stepWith, show s.fault = none from h]

theorem stepWith_faulted {cfg : Config} {s : State} {F : FaultRecord} (h : s.fault = some F) :
    stepWith cfg s = .fault (.halted F) := by
  simp [stepWith, h]

theorem fetch_ok {s : State} (h : s.pc.toNat ≤ 4094) : fetch s = .ok (wordAtPc s) := by
  rw [fetch, if_neg (by simpa [Config.fetchLimit] using h)]
  rfl

theorem fetch_fault {s : State} (h : 4094 < s.pc.toNat) :
    fetch s = .error (.outOfBounds .fetch s.pc.toNat s.pc) := by
  rw [fetch, if_pos (by simpa [Config.fetchLimit] using h)]

/-- A step past the fetch bound. -/
theorem stepWith_fetch_fault {cfg : Config} {s : State} (h : Running s) (hpc : 4094 < s.pc.toNat) :
    stepWith cfg s = .next (raiseFault (.outOfBounds .fetch s.pc.toNat s.pc) s) := by
  simp [stepWith_running h, cycle, fetch_fault hpc]

/-- A step on an unrecognized word. -/
theorem stepWith_unrecognized {cfg : Config} {s : State} {op : Opcode} (h : Running s) (hpc : s.pc.toNat ≤ 4094)
    (hd : decode cfg (wordAtPc s) = .unrecognized op) :
    stepWith cfg s = .next (raiseFault (.decodeFault op s.pc) s) := by
  simp [stepWith_running h, cycle, fetch_ok hpc, decodeExecute, hd]

/-- A step on a word that decodes. -/
theorem stepWith_instr {cfg : Config} {s : State} {i : Instr} (h : Running s) (hpc : s.pc.toNat ≤ 4094)
    (hd : decode cfg (wordAtPc s) = .instr i) : stepWith cfg s = execute i s := by
  simp [stepWith_running h, cycle, fetch_ok hpc, decodeExecute, hd]

/-- An unrecognized outcome names the opcode it was given (rule R74). -/
theorem decode_unrecognized {cfg : Config} {op op' : Opcode} (h : decode cfg op = .unrecognized op') : op' = op := by
  unfold decode at h
  split at h
  · cases h
  · exact (Decoded.unrecognized.inj h).symm

/-- Everything a step of a running machine can do when it answers a next state. -/
theorem stepWith_cases {cfg : Config} {s t : State} (h : Running s) (hs : stepWith cfg s = .next t) :
    (4094 < s.pc.toNat ∧ t = raiseFault (.outOfBounds .fetch s.pc.toNat s.pc) s) ∨
      (s.pc.toNat ≤ 4094 ∧ decode cfg (wordAtPc s) = .unrecognized (wordAtPc s) ∧
        t = raiseFault (.decodeFault (wordAtPc s) s.pc) s) ∨
      (s.pc.toNat ≤ 4094 ∧ ∃ i u, decode cfg (wordAtPc s) = .instr i ∧ exec i s = .next u ∧ t = finish u) := by
  by_cases hpc : 4094 < s.pc.toNat
  · rw [stepWith_fetch_fault h hpc] at hs
    exact .inl ⟨hpc, (Host.Outcome.next.inj hs).symm⟩
  · have hle : s.pc.toNat ≤ 4094 := by omega
    cases hd : decode cfg (wordAtPc s) with
    | unrecognized op =>
      rw [stepWith_unrecognized h hle hd] at hs
      obtain rfl := decode_unrecognized hd
      exact .inr (.inl ⟨hle, rfl, (Host.Outcome.next.inj hs).symm⟩)
    | instr i =>
      rw [stepWith_instr h hle hd, execute] at hs
      cases he : exec i s with
      | next u =>
        rw [he] at hs
        exact .inr (.inr ⟨hle, i, u, rfl, he, (Host.Outcome.next.inj hs).symm⟩)
      | fault r => rw [he] at hs; cases hs
      | refused r => rw [he] at hs; cases hs

/-- Taking a fault ends the step as it stands. -/
theorem finish_raiseFault (F : FaultRecord) (s : State) : finish (raiseFault F s) = raiseFault F s := rfl

@[simp] theorem finish_fault (s : State) : (finish s).fault = s.fault := by
  unfold finish
  split <;> rfl

/-- A fetched word is the one at pc, and the bound was met. -/
theorem fetch_eq {s : State} {op : Opcode} (h : fetch s = .ok op) : s.pc.toNat ≤ 4094 ∧ op = wordAtPc s := by
  by_cases hpc : 4094 < s.pc.toNat
  · rw [fetch_fault hpc] at h
    cases h
  · rw [fetch_ok (by omega)] at h
    exact ⟨by omega, (Except.ok.inj h).symm⟩

/-- An instruction that raises no fault is followed by the advance (rule R107). -/
theorem execute_running {i : Instr} {s t : State} (h : exec i s = .next t) (hr : t.fault = none) :
    execute i s = .next (advance t) := by
  simp only [execute, h, finish_running hr]

/-- An instruction that raises a fault ends the step (rule R108). -/
theorem execute_faulted {i : Instr} {s t : State} {F : FaultRecord} (h : exec i s = .next t) (hf : t.fault = some F) :
    execute i s = .next t := by
  simp only [execute, h, finish_faulted hf]

/-- A step of the word of an instruction. -/
theorem stepWith_encode {cfg : Config} {s : State} {i : Instr} (h : Running s) (hf : fetch s = .ok (encode i))
    (hd : decode cfg (encode i) = .instr i) : stepWith cfg s = execute i s := by
  obtain ⟨hpc, e⟩ := fetch_eq hf
  exact stepWith_instr h hpc (e ▸ hd)

/-- Memory after a store that fits reads as the bytes laid over it (rules R63, R166). -/
theorem read_writeBytes_overlaid {m : Memory} {a : Nat} {bytes : List Byte} (h : m.wf = true)
    (ha : a + bytes.length ≤ 4096) (k : Nat) : (m.writeBytes a bytes).read k = overlaid a bytes m k := by
  rw [Memory.read_writeBytes h ha, overlaid]
  by_cases hk : a ≤ k ∧ k < a + bytes.length
  · rw [dif_pos ⟨hk.1, by omega⟩, if_pos hk, List.getD_eq_getElem]
  · rw [dif_neg (by omega), if_neg hk]

/-! ### The host's step and run (rules R109, R110) -/

theorem stepCall_next {cfg : Config} {s t : State} (h : stepWith cfg s = .next t) :
    stepCall cfg s = (t, resultOf t) := by
  simp [stepCall, h]

theorem stepCall_faulted {cfg : Config} {s : State} {F : FaultRecord} (h : s.fault = some F) :
    stepCall cfg s = (s, .err F) := by
  simp [stepCall, stepWith_faulted h]

/-- The state a host's step leaves is a next state of the machine, or the machine as it was. -/
theorem stepCall_state (cfg : Config) (s : State) :
    (stepCall cfg s).1 = s ∨ stepWith cfg s = .next (stepCall cfg s).1 := by
  cases h : stepWith cfg s with
  | next t => exact .inr (by simp [stepCall, h])
  | fault r =>
    cases r
    exact .inl (by simp [stepCall, h])
  | refused r => exact .inl (by simp [stepCall, h])

/-- What each of the actions keeps, they keep together. -/
theorem applyActions_keeps {P : State → Prop} {actions : List TimerAction}
    (keeps : ∀ a ∈ actions, ∀ s, P s → P (a.apply s)) {s : State} (h : P s) : P (applyActions actions s) := by
  induction actions generalizing s with
  | nil => exact h
  | cons a rest ih => exact ih (fun b hb => keeps b (.tail a hb)) (keeps a (.head rest) s h)

@[simp] theorem applyActions_nil (s : State) : applyActions [] s = s := rfl

@[simp] theorem applyActions_cons (a : TimerAction) (rest : List TimerAction) (s : State) :
    applyActions (a :: rest) s = applyActions rest (a.apply s) := rfl

/-- Timer actions change the timers alone (rule R206). -/
theorem applyActions_eq (actions : List TimerAction) (s : State) :
    applyActions actions s =
      { s with delay := (applyActions actions s).delay, sound := (applyActions actions s).sound } := by
  induction actions generalizing s with
  | nil => rfl
  | cons a rest ih =>
    have e : a.apply s = { s with delay := (a.apply s).delay, sound := (a.apply s).sound } := by cases a <;> rfl
    have h := ih (a.apply s)
    rw [e] at h
    rw [applyActions_cons, e]
    exact h

@[simp] theorem undisturbed_length (fuel : Nat) : (undisturbed fuel).length = fuel := List.length_replicate

@[simp] theorem undisturbed_succ (fuel : Nat) : undisturbed (fuel + 1) = [] :: undisturbed fuel := rfl

/-- A run is allowed when each of its timer actions is. -/
theorem runAllows_iff {env : TimerEnv} {between : List (List TimerAction)} :
    runAllows env between = true ↔ ∀ actions ∈ between, ∀ a ∈ actions, timerAllows env a = true := by
  simp [runAllows]

/-- Steps without timer actions between them are the machine's steps. -/
theorem runsTo_undisturbed {cfg : Config} (n : Nat) (s t : State) :
    RunsTo cfg (undisturbed n) s t ↔ StepsTo cfg n s t := by
  induction n generalizing s with
  | zero => rfl
  | succ n ih => simp only [undisturbed_succ, RunsTo, StepsTo, applyActions_nil, ih]

/-- What every step and every action between the steps keeps, the run keeps. -/
theorem runFor_keeps {P : State → Prop} {cfg : Config} (keeps : ∀ s t, P s → stepWith cfg s = .next t → P t) :
    ∀ (between : List (List TimerAction)), (∀ actions ∈ between, ∀ a ∈ actions, ∀ s, P s → P (a.apply s)) →
      ∀ {s t : State} {F : FaultRecord}, P s → runFor cfg between s = some (t, F) → P t := by
  intro between
  induction between with
  | nil =>
    intro _ s t F _ h
    cases h
  | cons actions rest ih =>
    intro acts s t F hs h
    have h1 : P (stepCall cfg s).1 := by
      obtain e | e := stepCall_state cfg s
      · rwa [e]
      · exact keeps _ _ hs e
    rw [runFor] at h
    split at h
    · rename_i u b e
      rw [e] at h1
      exact ih (fun l hl => acts l (.tail actions hl)) (applyActions_keeps (acts actions (.head rest)) h1) h
    · rename_i u G e
      rw [e] at h1
      cases h
      exact h1
    · cases h

end Sys2Proof.Machine
end

