-- ==== Sys2Proof/Machine/Assembly.lean ====
section
/-! DEFINITION. The assembler text of an instruction, this spec's own syntax (rule R88 of 30_encoding.md). It carries no
semantics; no other definition reads it (log entry 17). -/

namespace Sys2Proof

/-- One hexadecimal digit, in capitals. -/
def hexDigit (n : Nat) : String :=
  match n with
  | 0 => "0" | 1 => "1" | 2 => "2" | 3 => "3" | 4 => "4" | 5 => "5" | 6 => "6" | 7 => "7"
  | 8 => "8" | 9 => "9" | 10 => "A" | 11 => "B" | 12 => "C" | 13 => "D" | 14 => "E" | _ => "F"

/-- A register: V0..VF. -/
def asmReg (x : RegIdx) : String := "V" ++ hexDigit x.toNat

/-- A byte in hex: two digits. -/
def asmByte (kk : Byte) : String := "0x" ++ hexDigit (kk.toNat / 16) ++ hexDigit (kk.toNat % 16)

/-- An address in hex: three digits. -/
def asmAddr (nnn : Addr12) : String :=
  "0x" ++ hexDigit (nnn.toNat / 256) ++ hexDigit (nnn.toNat / 16 % 16) ++ hexDigit (nnn.toNat % 16)

/-- The literal of write-delay and write-sound: a decimal number 0..15. -/
def asmLiteral (x : Nibble) : String :=
  if x.toNat < 10 then hexDigit x.toNat else "1" ++ hexDigit (x.toNat - 10)

/-- The text of an instruction: its name, a space and its operands (rule R88). The operand `n` of draw has no example
in the spec; it is written as a decimal literal. -/
def Instr.asm (i : Instr) : String :=
  match i with
  | .clearScreen => "clear-screen"
  | .ret => "return"
  | .systemCall nnn => "system-call " ++ asmAddr nnn
  | .jump nnn => "jump " ++ asmAddr nnn
  | .call nnn => "call " ++ asmAddr nnn
  | .skipIfEqualByte x kk => "skip-if-equal-byte " ++ asmReg x ++ ", " ++ asmByte kk
  | .skipIfNotEqualByte x kk => "skip-if-not-equal-byte " ++ asmReg x ++ ", " ++ asmByte kk
  | .skipIfRegistersEqual x y => "skip-if-registers-equal " ++ asmReg x ++ ", " ++ asmReg y
  | .loadByte x kk => "load-byte " ++ asmReg x ++ ", " ++ asmByte kk
  | .addByte x kk => "add-byte " ++ asmReg x ++ ", " ++ asmByte kk
  | .loadRegister x y => "load-register " ++ asmReg x ++ ", " ++ asmReg y
  | .orRegister x y => "or " ++ asmReg x ++ ", " ++ asmReg y
  | .andRegister x y => "and " ++ asmReg x ++ ", " ++ asmReg y
  | .xorRegister x y => "xor " ++ asmReg x ++ ", " ++ asmReg y
  | .addRegister x y => "add-register " ++ asmReg x ++ ", " ++ asmReg y
  | .subtractRegister x y => "subtract-register " ++ asmReg x ++ ", " ++ asmReg y
  | .shiftRight x y => "shift-right " ++ asmReg x ++ ", " ++ asmReg y
  | .subtractReverse x y => "subtract-reverse " ++ asmReg x ++ ", " ++ asmReg y
  | .shiftLeft x y => "shift-left " ++ asmReg x ++ ", " ++ asmReg y
  | .skipIfRegistersNotEqual x y => "skip-if-registers-not-equal " ++ asmReg x ++ ", " ++ asmReg y
  | .loadImmediate nnn => "load-immediate " ++ asmAddr nnn
  | .jumpOffset nnn => "jump-offset " ++ asmAddr nnn
  | .random x kk => "random " ++ asmReg x ++ ", " ++ asmByte kk
  | .draw x y n => "draw " ++ asmReg x ++ ", " ++ asmReg y ++ ", " ++ asmLiteral n
  | .skipIfKey x => "skip-if-key " ++ asmReg x
  | .skipIfNotKey x => "skip-if-not-key " ++ asmReg x
  | .readDelay x => "read-delay " ++ asmReg x
  | .waitKey x => "wait-key " ++ asmReg x
  | .writeDelay x => "write-delay " ++ asmLiteral x
  | .writeSound x => "write-sound " ++ asmLiteral x
  | .addToAddress x => "add-to-address " ++ asmReg x
  | .loadFontAddress x => "load-font-address " ++ asmReg x
  | .storeBCD x => "store-BCD " ++ asmReg x
  | .storeRegisters x => "store-registers " ++ asmReg x
  | .loadRegisters x => "load-registers " ++ asmReg x

end Sys2Proof
end

