-- ==== Sys2Proof/Tests/Slice0.lean ====
section
/-! SUPPORT. The model's own tests: the ill-formed terms, every variant's word written out from the opcode map (rule R75),
one step per vector of 95_test_vectors.md (its ids in the comments), and for every obligation with hypotheses a state and
operands that meet them. -/

namespace Sys2Proof.Tests

open Sys2Proof.Machine

/-! ### Helpers -/

/-- The other values of the parameters of rule R11. -/
def tableCfg : Config := { decoderStrategy := .table, timerEnv := .none, unimplAsDecodeFault := false }

def dropCfg : Config := { Config.standard with unimplAsDecodeFault := true }

/-- `s` with the word at its pc. -/
def place (s : State) (op : Opcode) : State := placeOpcode op s

/-- The reset state with the word at its pc. -/
def fresh (op : Opcode) : State := place State.reset op

/-- The state one step leaves. -/
def after (s : State) : State :=
  match step s with
  | .next t => t
  | .fault _ => s
  | .refused _ => s

/-- Both decoders, and the one for the numbering of the opcode table, read the word as the instruction. -/
def reads (op : Opcode) (i : Instr) : Bool :=
  decide (decodeMask false op = some i) && decide (decodeTable false op = some i) &&
    decide (decodeTableWord 16 op.toNat = some i) && decide (encode i = op)

/-- No decoder reads the word. -/
def readsNothing (op : Opcode) : Bool :=
  decide (decodeMask false op = none) && decide (decodeTable false op = none)

/-- The outcome of exec, when it is a next state. -/
def does (i : Instr) (s : State) : State :=
  match exec i s with
  | .next t => t
  | .fault _ => s
  | .refused _ => s

/-! ### Well-formedness: the one check (rule R78) -/

theorem test_wf_refuses_systemCall_0E0 : (Instr.systemCall 0x0E0).wf = false := by decide

theorem test_wf_refuses_systemCall_0EE : (Instr.systemCall 0x0EE).wf = false := by decide

theorem test_wf_admits_systemCall_1E0 : (Instr.systemCall 0x1E0).wf = true := by decide

/-! ### Decoding: one word per variant, bit by bit from the opcode map (rules R73, R75) -/

theorem test_decode_control :
    reads 0b0000000011100000 .clearScreen = true ∧
    reads 0b0000000011101110 .ret = true ∧
    reads 0b0000000100100011 (.systemCall 0x123) = true ∧
    reads 0b0001111111111111 (.jump 0xFFF) = true ∧
    reads 0b0010001000100010 (.call 0x222) = true ∧
    reads 0b0011001101000010 (.skipIfEqualByte 3 0x42) = true ∧
    reads 0b0100001101000010 (.skipIfNotEqualByte 3 0x42) = true ∧
    reads 0b0101000100100000 (.skipIfRegistersEqual 1 2) = true := by decide

theorem test_decode_bytes :
    reads 0b0110101011111111 (.loadByte 10 0xFF) = true ∧
    reads 0b0111000000001010 (.addByte 0 0x0A) = true ∧
    reads 0b1010000100100011 (.loadImmediate 0x123) = true ∧
    reads 0b1011000100100011 (.jumpOffset 0x123) = true ∧
    reads 0b1100010000001111 (.random 4 0x0F) = true ∧
    reads 0b1101000000010101 (.draw 0 1 5) = true := by decide

theorem test_decode_alu :
    reads 0b1000000100100000 (.loadRegister 1 2) = true ∧
    reads 0b1000000100100001 (.orRegister 1 2) = true ∧
    reads 0b1000000100100010 (.andRegister 1 2) = true ∧
    reads 0b1000000100100011 (.xorRegister 1 2) = true ∧
    reads 0b1000000100100100 (.addRegister 1 2) = true ∧
    reads 0b1000000100100101 (.subtractRegister 1 2) = true ∧
    reads 0b1000000100000110 (.shiftRight 1 0) = true ∧
    reads 0b1000000100100111 (.subtractReverse 1 2) = true ∧
    reads 0b1000000100001110 (.shiftLeft 1 0) = true ∧
    reads 0b1001000100100000 (.skipIfRegistersNotEqual 1 2) = true := by decide

theorem test_decode_keys_timers_memory :
    reads 0b1110000010011110 (.skipIfKey 0) = true ∧
    reads 0b1110001110100001 (.skipIfNotKey 3) = true ∧
    reads 0b1111010100000111 (.readDelay 5) = true ∧
    reads 0b1111001000001010 (.waitKey 2) = true ∧
    reads 0b1111010100010101 (.writeDelay 5) = true ∧
    reads 0b1111100100011000 (.writeSound 9) = true ∧
    reads 0b1111111100011110 (.addToAddress 15) = true ∧
    reads 0b1111000000101001 (.loadFontAddress 0) = true ∧
    reads 0b1111000000110011 (.storeBCD 0) = true ∧
    reads 0b1111001101010101 (.storeRegisters 3) = true ∧
    reads 0b1111001001100101 (.loadRegisters 2) = true := by decide

/-- Section 2.2: 01E0 is a system-call; the unrecognized words at the families' edges. -/
theorem test_decode_edges :
    reads 0x01E0 (.systemCall 0x1E0) = true ∧ reads 0x0000 (.systemCall 0) = true ∧
    readsNothing 0x5121 = true ∧ readsNothing 0x512F = true ∧ readsNothing 0x8008 = true ∧
    readsNothing 0x800D = true ∧ readsNothing 0x800F = true ∧ readsNothing 0x9001 = true ∧
    readsNothing 0xE000 = true ∧ readsNothing 0xE09F = true ∧ readsNothing 0xE0A0 = true ∧
    readsNothing 0xF000 = true ∧ readsNothing 0xF066 = true ∧ readsNothing 0xFFFF = true := by decide

/-- S2, S3: the fetched bytes are combined high byte first. -/
theorem test_assemble : assemble 0x31 0x42 = 0x3142 ∧ assemble 0x01 0x02 = 0x0102 := by decide

/-- The examples of rule R88. -/
theorem test_assembler_text :
    (Instr.systemCall 0x123).asm = "system-call 0x123" ∧
    (Instr.skipIfEqualByte 3 0x42).asm = "skip-if-equal-byte V3, 0x42" ∧
    (Instr.addByte 0 0x0A).asm = "add-byte V0, 0x0A" ∧
    (Instr.orRegister 1 2).asm = "or V1, V2" ∧
    (Instr.writeSound 9).asm = "write-sound 9" ∧
    (Instr.storeBCD 0).asm = "store-BCD V0" := by decide

/-! ### Fetch and the step (rules R100 to R111) -/

/-- F1: the last word that can be fetched; the result says that pc has left memory. -/
theorem test_fetch_last_word :
    stepCall Config.standard { State.reset with pc := 0xFFE } = ({ State.reset with pc := 0x1000 }, .ok false) := by
  decide

/-- F2: no byte is read at 4095; only the fault changes. -/
theorem test_fetch_past_limit :
    stepCall tableCfg { State.reset with pc := 0xFFF } =
      ({ State.reset with pc := 0xFFF, fault := some (.outOfBounds .fetch 0xFFF 0xFFF) },
        .err (.outOfBounds .fetch 0xFFF 0xFFF)) := by decide

/-- F5: an odd pc is legal. -/
theorem test_fetch_odd_pc :
    let t := after (place { State.reset with pc := 0x201 } 0x6007)
    t.reg 0 = 7 ∧ t.pc = 0x203 ∧ t.suppress = false := by decide

/-- F6: a faulted machine returns its fault and changes nothing. -/
theorem test_step_of_faulted :
    let s := { fresh 0x7001 with fault := some (.decodeFault 0x5121 0x200) }
    stepCall Config.standard s = (s, .err (.decodeFault 0x5121 0x200)) ∧
      step s = .fault (.halted (.decodeFault 0x5121 0x200)) := by
  exact ⟨by decide, rfl⟩

/-- An unrecognized word (section 2.2). -/
theorem test_decode_fault :
    after (fresh 0x8008) = { fresh 0x8008 with fault := some (.decodeFault 0x8008 0x200) } := by decide

/-- The word the host places is the one the next step runs. -/
theorem test_withFetchWord :
    (after (State.reset.withFetchWord 16 0x6007)).reg 0 = 7 ∧
    (State.reset.withFetchWord 16 0x6007).mem = [(512, 0x60), (513, 0x07)] := by decide

/-! ### Control (section 2.3) -/

/-- C1. -/
theorem test_clearScreen : after (fresh 0x00E0) = { fresh 0x00E0 with pc := 0x202 } := by decide

/-- C2. -/
theorem test_ret_underflow :
    after (fresh 0x00EE) = { fresh 0x00EE with fault := some (.stackFault .underflow 0x200) } := by decide

/-- C3. -/
theorem test_ret :
    let s := place { State.reset with pc := 0x400, sp := 2, stack := (State.reset.stack.set 1 0x300).set 2 0x250 } 0x00EE
    after s = { s with pc := 0x250, sp := 1 } := by decide

/-- C4. -/
theorem test_systemCall : after (fresh 0x0123) = { fresh 0x0123 with pc := 0x202 } := by decide

/-- C5, S10. -/
theorem test_jump :
    after (fresh 0x1FFF) = { fresh 0x1FFF with pc := 0xFFF } ∧
    (after (after (fresh 0x1FFF))).fault = some (.outOfBounds .fetch 0xFFF 0xFFF) := by decide

/-- C8. -/
theorem test_call :
    let s := place { State.reset with pc := 0x300, sp := 14 } 0x2400
    after s = { s with pc := 0x400, sp := 15, stack := State.reset.stack.set 15 0x300 } := by decide

/-- C9. -/
theorem test_call_overflow :
    let s := place { State.reset with sp := 15 } 0x2400
    after s = { s with fault := some (.stackFault .overflow 0x200) } := by decide

/-- C10, C11. -/
theorem test_skipIfEqualByte :
    (after (place (State.reset.setReg 3 0x42) 0x3342)).pc = 0x204 ∧
    (after (place (State.reset.setReg 3 0x41) 0x3342)).pc = 0x202 := by decide

/-- C16, C17. -/
theorem test_skipIfNotEqualByte :
    (after (place (State.reset.setReg 3 0x42) 0x4342)).pc = 0x202 ∧
    (after (place (State.reset.setReg 3 0x41) 0x4342)).pc = 0x204 := by decide

/-- C18, C19. -/
theorem test_skipIfRegistersEqual :
    (after (place ((State.reset.setReg 1 7).setReg 2 7) 0x5120)).pc = 0x204 ∧
    (after (place ((State.reset.setReg 1 7).setReg 2 8) 0x5120)).pc = 0x202 := by decide

/-! ### Registers and alu (section 2.4) -/

/-- A1. -/
theorem test_loadByte :
    let t := after (place (State.reset.setReg 15 0x55) 0x6AFF)
    t.reg 10 = 0xFF ∧ t.reg 15 = 0x55 := by decide

/-- S6. -/
theorem test_addByte :
    let t := after (place (State.reset.setReg 0 0xFA) 0x700A)
    t.reg 0 = 4 ∧ t.reg 15 = 1 := by decide

/-- A6, A7: the carry overwrites the sum. -/
theorem test_addByte_flag_register :
    (after (place (State.reset.setReg 15 0xFF) 0x7F01)).reg 15 = 1 ∧
    (after (place (State.reset.setReg 15 0x10) 0x7F01)).reg 15 = 0 := by decide

/-- A8. -/
theorem test_loadRegister :
    let t := after (place ((State.reset.setReg 2 7).setReg 15 0x55) 0x8120)
    t.reg 1 = 7 ∧ t.reg 2 = 7 ∧ t.reg 15 = 0x55 := by decide

/-- A9: the flag register is not touched. -/
theorem test_or :
    let t := after (place (((State.reset.setReg 1 0x0F).setReg 2 0xF0).setReg 15 0x55) 0x8121)
    t.reg 1 = 0xFF ∧ t.reg 2 = 0xF0 ∧ t.reg 15 = 0x55 := by decide

/-- A10. -/
theorem test_and : (after (place ((State.reset.setReg 1 0x3C).setReg 2 0x0F) 0x8122)).reg 1 = 0x0C := by decide

/-- A11. -/
theorem test_xor : (after (place ((State.reset.setReg 1 0xFF).setReg 2 0x0F) 0x8123)).reg 1 = 0xF0 := by decide

/-- A13: both operands are the same register. -/
theorem test_addRegister_same :
    let t := after (place (State.reset.setReg 1 0x80) 0x8114)
    t.reg 1 = 0 ∧ t.reg 15 = 1 := by decide

/-- A15, A17: V[15] as destination and as operand. -/
theorem test_addRegister_flag_register :
    (after (place ((State.reset.setReg 15 0xFF).setReg 1 1) 0x8F14)).reg 15 = 1 ∧
    (after (place ((State.reset.setReg 1 0xFF).setReg 15 1) 0x81F4)).reg 1 = 0 := by decide

/-- A18 to A20: whatever the draw is. -/
theorem test_random : (after (fresh 0xC40F)).reg 4 = Config.randomByte 0 &&& 0x0F := rfl

/-- One draw is taken. -/
theorem test_random_draws : (after (fresh 0xC40F)).draws = 1 := by decide

/-! ### Address register, timers, memory (section 2.5) -/

/-- M2. -/
theorem test_loadImmediate : (after (place { State.reset with I := 0xFFFA } 0xAFFF)).I = 0x0FFF := by decide

/-- M3. -/
theorem test_readDelay : (after (place { State.reset with delay := 7 } 0xF507)).reg 5 = 7 := by decide

/-- M4: the literal, not the register. -/
theorem test_writeDelay : (after (place (State.reset.setReg 5 0x99) 0xF515)).delay = 5 := by decide

/-- M7. -/
theorem test_writeSound : (after (place (State.reset.setReg 9 0x40) 0xF918)).sound = 9 := by decide

/-- M8: passing 4095 sets no flag. -/
theorem test_addToAddress :
    let t := after (place ({ State.reset with I := 0x0FFF }.setReg 0 1) 0xF01E)
    t.I = 0x1000 ∧ t.reg 15 = 0 := by decide

/-- M10: V[15] is the operand and takes the carry. -/
theorem test_addToAddress_flag_register :
    let t := after (place ({ State.reset with I := 0xFFF8 }.setReg 15 0x10) 0xFF1E)
    t.I = 0x0008 ∧ t.reg 15 = 1 := by decide

/-- M12. -/
theorem test_storeBCD :
    let s := place ({ State.reset with I := 0x300 }.setReg 0 0xFE) 0xF033
    after s = { s with pc := 0x202, mem := s.mem ++ [(0x300, 2), (0x301, 5), (0x302, 4)] } := by decide

/-- M17: nothing is stored. -/
theorem test_storeBCD_fault :
    let s := place ({ State.reset with I := 0xFFE }.setReg 0 0xFE) 0xF033
    after s = { s with fault := some (.outOfBounds .data 4096 0x200) } := by decide

/-- M19. -/
theorem test_storeRegisters :
    let s := place (((({ State.reset with I := 0x400 }.setReg 0 1).setReg 1 2).setReg 2 3).setReg 3 4) 0xF355
    after s = { s with pc := 0x202, mem := s.mem ++ [(0x400, 1), (0x401, 2), (0x402, 3), (0x403, 4)] } := by decide

/-- M23: nothing is stored. -/
theorem test_storeRegisters_fault :
    let s := place ({ State.reset with I := 0xFFF }.setReg 0 9) 0xF155
    after s = { s with fault := some (.outOfBounds .data 4096 0x200) } := by decide

/-- M24. -/
theorem test_loadRegisters :
    let s := place ({ State.reset with I := 0x300, mem := [(0x300, 2), (0x301, 5), (0x302, 4), (0x303, 9)] }.setReg 3 7) 0xF265
    after s = { ((s.setReg 0 2).setReg 1 5).setReg 2 4 with pc := 0x202 } := by decide

/-- M18's address for a load: it does not wrap. -/
theorem test_loadRegisters_fault :
    let s := place { State.reset with I := 0xFFFF } 0xF065
    after s = { s with fault := some (.outOfBounds .data 0xFFFF 0x200) } := by decide

/-! ### Unimplemented variants (section 2.6) -/

/-- The fault a step of the word takes, when nothing else changed. -/
def onlyFault (cfg : Config) (op : Opcode) (F : FaultRecord) : Bool :=
  decide (stepCall cfg (fresh op) = ({ fresh op with fault := some F }, .err F))

theorem test_unimplemented_alu :
    onlyFault tableCfg 0x8125 (.unimplementedFault 0x8125 0x200) = true ∧
    onlyFault tableCfg 0x8106 (.unimplementedFault 0x8106 0x200) = true ∧
    onlyFault tableCfg 0x8127 (.unimplementedFault 0x8127 0x200) = true ∧
    onlyFault tableCfg 0x810E (.unimplementedFault 0x810E 0x200) = true ∧
    onlyFault tableCfg 0x9120 (.unimplementedFault 0x9120 0x200) = true ∧
    onlyFault tableCfg 0xB300 (.unimplementedFault 0xB300 0x200) = true := by decide

theorem test_unimplemented_devices :
    onlyFault Config.standard 0xD015 (.unimplementedFault 0xD015 0x200) = true ∧
    onlyFault Config.standard 0xE09E (.unimplementedFault 0xE09E 0x200) = true ∧
    onlyFault Config.standard 0xE3A1 (.unimplementedFault 0xE3A1 0x200) = true ∧
    onlyFault Config.standard 0xF20A (.unimplementedFault 0xF20A 0x200) = true ∧
    onlyFault Config.standard 0xF029 (.unimplementedFault 0xF029 0x200) = true := by decide

/-- Rule R86. -/
theorem test_unimplemented_dropped : onlyFault dropCfg 0xD015 (.decodeFault 0xD015 0x200) = true := by decide

/-! ### The host (section 2.7) -/

/-- L2. -/
theorem test_load_capacity (bytes : List Byte) (h : bytes.length = 3585) :
    load (some bytes) State.reset = .error .capacity := by
  simp [load, h]

/-- L4, and S11 after it. -/
theorem test_load_after_step :
    (Session.fresh "m" 0).calls Config.standard [.load (some [0x60, 0x07]), .step, .load (some [])] = none ∧
    (Session.fresh "m" 0).calls Config.standard [.load (some [0x60, 0x07]), .step, .reset] =
      some (Session.fresh "m" 0) := by decide

/-- T1. -/
theorem test_tick : (does (.readDelay 1) (TimerAction.tickDelay.apply (does (.writeDelay 5) State.reset))).reg 1 = 4 := by
  decide

/-- Rules R114, R69: the observer of load-byte V0, 7 is told the state without memory. -/
theorem test_observe :
    observe Config.standard none (fresh 0x6007) = some { opcode := 0x6007, instruction := .loadByte 0 7, state :=
      { snapshot := { pc := 0x202, sp := 0, stack := State.reset.stack, V := State.reset.V.set 0 7, I := 0, delay := 0, sound := 0 },
        suppress := false, fault := none } } := by decide

/-- T1 inside one run (rules R110, R206): system-call, a tick, read-delay V1; under TIMER_ENV = none no tick is admitted. -/
theorem test_tick_inside_run :
    let w : Session := { state := { State.reset with pc := 4092, mem := [(4094, 0xF1), (4095, 0x07)], delay := 5 }, started := true }
    (w.run Config.standard [[.tickDelay], [], []]).map (fun r => r.1.state.reg 1) = some 4 ∧
    w.run tableCfg [[.tickDelay], [], []] = none := by decide

/-! ### Witnesses: hypotheses of the obligations, met together -/

theorem witness_EncodedInstructionDecodesToItself :
    ((Instr.draw 15 15 15).wf = true ∧ (Config.standard.unimplAsDecodeFault = false ∨ (Instr.draw 15 15 15).executed = true)) ∧
    ((Instr.systemCall 0xFFF).wf = true ∧ (dropCfg.unimplAsDecodeFault = false ∨ (Instr.systemCall 0xFFF).executed = true)) := by
  decide

theorem witness_DecodedWordIsTheEncodingOfItsInstruction :
    decode tableCfg 0x8124 = .instr (.addRegister 1 2) ∧ decode dropCfg 0x00EE = .instr .ret := by decide

theorem witness_UnrecognizedWordsAreThoseOfTheTable :
    UnrecognizedWord 0x5121 ∧ UnrecognizedWord 0x800F ∧ UnrecognizedWord 0x9001 ∧ UnrecognizedWord 0xE0A0 ∧
    UnrecognizedWord 0xFFFF ∧ ¬ UnrecognizedWord 0x800E ∧ ¬ UnrecognizedWord 0xF065 := by
  unfold UnrecognizedWord
  refine ⟨?_, ?_, ?_, ?_, ?_, ?_, ?_⟩ <;> decide

theorem witness_DroppingUnimplementedPatternsDropsOnlyThem :
    DecoderStrategy.mask.run false 0x8125 = some (.subtractRegister 1 2) ∧ DecoderStrategy.mask.run true 0x8125 = none ∧
    DecoderStrategy.table.run true 0x8124 = some (.addRegister 1 2) := by decide

theorem witness_EncodedBytesDecodeAndConsumeTwo :
    (Instr.loadByte 0 0xFA).wf = true ∧ (dropCfg.unimplAsDecodeFault = false ∨ (Instr.loadByte 0 0xFA).executed = true) := by
  decide

theorem witness_FetchedOpcodeIsTheTwoBytesAtPc : { State.reset with pc := 4094 }.pc.toNat ≤ 4094 := by decide

theorem witness_FetchBoundIsPc4094 :
    (Running { State.reset with pc := 4094 } ∧ (4094 : Word).toNat ≤ 4094) ∧
    (Running { State.reset with pc := 4095 } ∧ 4094 < (4095 : Word).toNat) := by decide

theorem witness_UnrecognizedWordRaisesDecodeFault :
    Running (fresh 0x5121) ∧ fetch (fresh 0x5121) = .ok 0x5121 ∧ decode Config.standard 0x5121 = .unrecognized 0x5121 :=
  ⟨rfl, rfl, by decide⟩

theorem witness_UnimplementedWordFaultsForGood :
    Running (fresh 0xD015) ∧ fetch (fresh 0xD015) = .ok (encode (.draw 0 1 5)) ∧ (Instr.draw 0 1 5).executed = false :=
  ⟨rfl, rfl, rfl⟩

/-- One witness per clause: a step that completes, and one that faults. -/
theorem witness_StepRunsTheDecodedInstructionThenAdvances :
    (Running (fresh 0x6007) ∧ (fresh 0x6007).pc.toNat ≤ 4094 ∧
      decode Config.standard (wordAtPc (fresh 0x6007)) = .instr (.loadByte 0 7) ∧
      (does (.loadByte 0 7) (fresh 0x6007)).fault = none) ∧
    (Running (fresh 0x00EE) ∧ decode Config.standard (wordAtPc (fresh 0x00EE)) = .instr .ret ∧
      (does .ret (fresh 0x00EE)).fault ≠ none) := by decide

theorem witness_FaultedMachineOnlyReturnsItsFault :
    (after (fresh 0x00EE)).fault = some (.stackFault .underflow 0x200) := by decide

theorem witness_EveryInstructionAndStepCompletes :
    Running State.reset ∧ ¬ Running (after (fresh 0x00EE)) := by decide

theorem witness_FaultingStepChangesNothingElse :
    Running (fresh 0x00EE) ∧ stepWith Config.standard (fresh 0x00EE) = .next (after (fresh 0x00EE)) ∧
      (after (fresh 0x00EE)).fault = some (.stackFault .underflow 0x200) := ⟨rfl, rfl, rfl⟩

/-- A step that returns Ok(false) and one that returns Err. -/
theorem witness_StepResultReportsBoundsOrFault :
    Running { State.reset with pc := 0xFFE } ∧
    (stepCall Config.standard { State.reset with pc := 0xFFE }).2 = .ok false ∧
    Running { State.reset with pc := 0xFFF } ∧
    (stepCall Config.standard { State.reset with pc := 0xFFF }).2 = .err (.outOfBounds .fetch 0xFFF 0xFFF) := by decide

theorem witness_NextPcOfEveryInstruction :
    Running (fresh 0x3000) ∧ (fresh 0x3000).suppress = false ∧
    fetch (fresh 0x3000) = .ok (encode (.skipIfEqualByte 0 0)) ∧
    decode Config.standard (encode (.skipIfEqualByte 0 0)) = .instr (.skipIfEqualByte 0 0) ∧
    stepWith Config.standard (fresh 0x3000) = .next (after (fresh 0x3000)) ∧ Running (after (fresh 0x3000)) :=
  ⟨rfl, rfl, rfl, rfl, rfl, rfl⟩

/-- One witness per clause: exec answers a next state in which the element differs. -/
theorem witness_OnlyTheListedInstructionsWriteEachElement :
    let s := { State.reset with sp := 1, I := 0xFF0 }
    mayWrite (.addByte 3 1) 14 = false ∧
    (does (.jump 5) s).pc ≠ s.pc ∧ (does (.storeRegisters 0) (s.setReg 0 9)).mem.read 0xFF0 ≠ s.mem.read 0xFF0 ∧
    (does (.loadImmediate 5) s).I ≠ s.I ∧ (does (.storeBCD 0) (s.setReg 0 9)).mem ≠ s.mem ∧
    (does (.call 5) s).stack ≠ s.stack ∧ (does .ret s).sp ≠ s.sp ∧ (does (.jump 5) s).suppress ≠ s.suppress ∧
    (does (.writeDelay 5) s).delay ≠ s.delay ∧ (does (.writeSound 5) s).sound ≠ s.sound ∧
    (does (.random 0 0) s).draws ≠ s.draws ∧ (does (.waitKey 0) s).fault ≠ s.fault := by decide

theorem witness_ClearScreenAndSystemCallAreNoOps : Running State.reset ∧ State.reset.suppress = false := ⟨rfl, rfl⟩

/-- Both clauses at their boundary depths. -/
theorem witness_ReturnPopsOrUnderflows :
    { State.reset with sp := 1 }.sp ≠ 0 ∧ { State.reset with sp := 15 }.sp ≠ 0 ∧ State.reset.sp = 0 := by decide

/-- The jump to 4095 and the step after it. -/
theorem witness_JumpGoesToItsAddress :
    Running (fresh 0x1FFF) ∧ execute (.jump 0xFFF) (fresh 0x1FFF) = .next (after (fresh 0x1FFF)) ∧
    (stepCall Config.standard (after (fresh 0x1FFF))).2 = .err (.outOfBounds .fetch 4095 0xFFF) := ⟨rfl, rfl, rfl⟩

theorem witness_CallPushesItsOwnAddressOrOverflows :
    { State.reset with sp := 14 }.sp ≠ 15 ∧ { State.reset with sp := 15 }.sp = 15 := by decide

/-- A call of 4094, where a return stands. -/
def callOf4094 : State := place { State.reset with mem := [(4095, 0xEE)] } 0x2FFE

theorem witness_CallAndReturnComeBackToTheCall :
    Running callOf4094 ∧ callOf4094.suppress = false ∧ callOf4094.sp ≠ 15 ∧ (4094 : Addr12).toNat ≤ 4094 ∧
    fetch callOf4094 = .ok (encode (.call 4094)) ∧
    assemble (callOf4094.mem.read 4094) (callOf4094.mem.read (4094 + 1)) = encode .ret :=
  ⟨rfl, rfl, by decide, by decide, rfl, by decide⟩

theorem witness_SkipIfEqualByteSkipsOnEquality :
    Running State.reset ∧ State.reset.suppress = false ∧ State.reset.reg 0 = 0 ∧ State.reset.reg 0 ≠ 1 := by decide

theorem witness_OtherSkipsFollowTheirConditions :
    let s := State.reset.setReg 1 7
    Running s ∧ s.suppress = false ∧ s.reg 1 = 7 ∧ s.reg 1 ≠ s.reg 2 := by decide

theorem witness_LogicalOperationsWriteOnlyVx : (15 : RegIdx) = 15 := rfl

/-- The destination is not the flag register, and there is a third register; so for the two adds and add-to-address. -/
theorem witness_AddByteWritesSumThenCarry : (14 : RegIdx) ≠ 15 ∧ (0 : RegIdx) ≠ 14 ∧ (0 : RegIdx) ≠ 15 := by decide

theorem witness_AddRegisterWritesSumThenCarry : (0 : RegIdx) ≠ 15 ∧ (14 : RegIdx) ≠ 0 ∧ (14 : RegIdx) ≠ 15 := by decide

theorem witness_AddToAddressSetsIAndSixteenBitCarry : (14 : RegIdx) ≠ 15 := by decide

theorem witness_RandomMasksOneDraw : (0x00 : Byte) = 0 := rfl

theorem witness_StoreBcdStoresThreeDigitsOrFaults :
    let s := { State.reset with I := 4093 }
    let t := { State.reset with I := 4094 }
    (s.mem.wf = true ∧ effectiveAddress s 2 ≤ 4095) ∧ 4095 < effectiveAddress t 2 := by decide

theorem witness_StoreRegistersStoresVZeroToXOrFaults :
    let s := { State.reset with I := 4080 }
    let t := { State.reset with I := 4081 }
    (s.mem.wf = true ∧ effectiveAddress s (15 : RegIdx).toNat ≤ 4095) ∧ 4095 < effectiveAddress t (15 : RegIdx).toNat := by
  decide

theorem witness_LoadRegistersLoadsVZeroToXOrFaults :
    effectiveAddress { State.reset with I := 4095 } (0 : RegIdx).toNat ≤ 4095 ∧
    4095 < effectiveAddress { State.reset with I := 4095 } (1 : RegIdx).toNat := by decide

theorem witness_MemReadAndMemWriteAreBoundsChecked :
    (fresh 0x6007).mem.wf = true ∧ (4095 : Nat) ≤ 4095 ∧ (4095 : Nat) < 4096 := by decide

theorem witness_CanonicalMemoriesThatReadAlikeAreEqual :
    let m : Memory := [(5, 1), (4095, 2)]
    let n : Memory := Memory.write (Memory.write [] 4095 2) 5 1
    m.wf = true ∧ n.wf = true ∧ ∀ a, a ≤ 4095 → m.read a = n.read a :=
  ⟨by decide, by decide, fun _ _ => rfl⟩

/-- store-registers over both bytes of the word that follows it; store-BCD over the first byte of that word alone. -/
def storeOverNext : State := place { State.reset with I := 0x202 } 0xF155

def digitsOverNext : State := place { State.reset with pc := 4092, I := 4092 } 0xF033

theorem witness_StoreIntoCodeIsSeenByTheNextFetch :
    (Running storeOverNext ∧ storeOverNext.suppress = false ∧ storeOverNext.mem.wf = true ∧
      storeOverNext.pc.toNat ≤ 4092 ∧ fetch storeOverNext = .ok (encode (.storeRegisters 1)) ∧
      effectiveAddress storeOverNext (1 : RegIdx).toNat ≤ 4095) ∧
    (Running digitsOverNext ∧ digitsOverNext.suppress = false ∧ digitsOverNext.mem.wf = true ∧
      digitsOverNext.pc.toNat ≤ 4092 ∧ fetch digitsOverNext = .ok (encode (.storeBCD 0)) ∧
      effectiveAddress digitsOverNext 2 ≤ 4095) :=
  ⟨⟨rfl, rfl, by decide, by decide, rfl, by decide⟩, ⟨rfl, rfl, by decide, by decide, rfl, by decide⟩⟩

/-- The invariant holds of a machine with a call in progress, and its next step answers a next state. -/
theorem witness_StepKeepsTheInvariant :
    Inv (after (fresh 0x2222)) ∧ stepWith Config.standard (after (fresh 0x2222)) = .next (after (after (fresh 0x2222))) :=
  ⟨⟨by decide, by decide, by decide, by decide, by decide⟩, rfl⟩

theorem witness_EveryHostCallKeepsTheSessionInvariant :
    SessionInv (Session.fresh "m" 0) ∧
    ((Session.fresh "m" 0).call Config.standard .step).isSome = true ∧
    ((Session.fresh "m" 0).call Config.standard (.load (some [1, 2]))).isSome = true ∧
    ((Session.fresh "m" 0).call Config.standard (.timer .tickDelay)).isSome = true :=
  ⟨⟨⟨rfl, by decide, by decide, by decide, rfl⟩, fun _ => ⟨rfl, fun _ _ => rfl⟩⟩, rfl, rfl, rfl⟩

/-- Timers at the top of the range, before a call that changes one. -/
theorem witness_TimersStayWithinTheLiteralRange :
    let w : Session := { state := { State.reset with delay := 15, sound := 15 }, started := true }
    Config.standard.timerEnv ≠ .arbitrary ∧ (w.state.delay.toNat ≤ 15 ∧ w.state.sound.toNat ≤ 15) ∧
    (w.call Config.standard (.timer .tickSound)).isSome = true := by decide

theorem witness_DelayReadBackIsAtMostTheValueWritten :
    ∀ a ∈ [TimerAction.tickDelay, .tickSound], timerAllows .decrement a = true := by decide

theorem witness_SoundTimerIsNeverRead :
    stepWith Config.standard (fresh 0xF918) = .next (after (fresh 0xF918)) := rfl

/-- A faulted machine and calls without a reset that are all admitted. -/
theorem witness_FaultLastsUntilReset :
    let w : Session := { state := after (fresh 0x00EE), started := true }
    w.started = true ∧ w.state.fault = some (.stackFault .underflow 0x200) ∧
    HostCall.reset ∉ [HostCall.step, .timer .tickDelay, .run [[.tickSound]], .snapshot] ∧
    (w.calls Config.standard [.step, .timer .tickDelay, .run [[.tickSound]], .snapshot]).isSome = true := by decide

/-- Zero memory from the entry point, and from the last word. -/
theorem witness_ZeroMemorySlidesToTheFetchFault :
    (Running State.reset ∧ State.reset.suppress = false ∧ State.reset.pc.toNat ≤ 4094 ∧
      ∀ a, State.reset.pc.toNat ≤ a → a ≤ 4095 → State.reset.mem.read a = 0) ∧
    (∀ a, 4094 ≤ a → a ≤ 4095 → { State.reset with pc := 4094 }.mem.read a = 0) :=
  ⟨⟨rfl, rfl, by decide, fun _ _ _ => rfl⟩, fun _ _ _ => rfl⟩

/-- A run that returns in its second step: with a tick between the two, and without. -/
theorem witness_RunReturnsTheFirstFault :
    runFor Config.standard [[.tickDelay], []] { State.reset with pc := 4094, delay := 9 } =
      some ({ State.reset with pc := 4096, delay := 8, fault := some (.outOfBounds .fetch 4096 4096) },
        .outOfBounds .fetch 4096 4096) ∧
    (runFor Config.standard (undisturbed 2) { State.reset with pc := 4094 }).isSome = true ∧
    runFor Config.standard (undisturbed 1) { State.reset with pc := 4094 } = none := by decide

theorem witness_LoadPlacesTheBytesOrFails :
    State.reset.mem.wf = true ∧ (List.replicate 3584 (1 : Byte)).length ≤ 3584 ∧
    3584 < (List.replicate 3585 (1 : Byte)).length := by
  refine ⟨rfl, le_of_eq List.length_replicate, ?_⟩
  rw [List.length_replicate]
  decide

theorem witness_LoadIsAdmittedOnlyBeforeTheFirstStep :
    (Session.fresh "m" 0).started = false ∧ { Session.fresh "m" 0 with started := true }.started = true := ⟨rfl, rfl⟩

/-- One witness per clause: a load, a timer action, a peek at the last address. -/
theorem witness_HostCallsBetweenStepsWriteOnlyMemoryOrTimers :
    ((Session.fresh "m" 0).call Config.standard (.load (some [1, 2]))).isSome = true ∧
    ((Session.fresh "m" 0).call Config.standard (.timer .tickSound)).isSome = true ∧
    ((Session.fresh "m" 0).call Config.standard (.peek 4095)).isSome = true := by decide

theorem witness_ObserverIsToldOfEveryCompletedStep :
    Running (fresh 0x6007) ∧ stepWith Config.standard (fresh 0x6007) = .next (after (fresh 0x6007)) ∧
      Running (after (fresh 0x6007)) := ⟨rfl, rfl, rfl⟩

theorem witness_ObservationChangesNothing : (4095 : Nat) ≤ 4095 ∧ (4095 : Nat) < 4096 := by decide

theorem witness_CallOnOneInstanceLeavesTheOthers :
    (callAt 0 .step [(Config.standard, Session.fresh "a" 0), (tableCfg, Session.fresh "b" 0)]).isSome = true ∧
    (1 : Nat) ≠ 0 := by decide

end Sys2Proof.Tests
end

section
/-! PROOF. What the execute phase of any instruction can do, said once (rules R105, R113, R120 to R127, R142 to R149,
R160 to R167, R180), with the frame of each element of the state. The proofs about steps go through it. -/

namespace Sys2Proof.Machine

/-- The instructions whose execute phase can raise a fault (rules R121, R124, R165 to R167, R180). -/
def CanFault (i : Instr) : Prop :=
  i.executed = false ∨ i = .ret ∨ (∃ nnn, i = .call nnn) ∨ (∃ x, i = .storeBCD x) ∨ (∃ x, i = .storeRegisters x) ∨
    ∃ x, i = .loadRegisters x

/-- `V` agrees with the registers of `s` wherever `i` may not write (rule R25). -/
def KeepsUnlisted (i : Instr) (s : State) (V : Vector Byte 16) : Prop :=
  ∀ k, mayWrite i k = false → State.reg { s with V := V } k = s.reg k

/-- The execute phase of `i` can lead from `s` to `t`: the fault it raises, or the elements it writes. Of registers it
says only which are kept. -/
inductive Effect (s : State) : Instr → State → Prop where
  | fault (i : Instr) (F : FaultRecord) (can : CanFault i) : Effect s i (raiseFault F s)
  | clearScreen : Effect s .clearScreen s
  | systemCall (nnn : Addr12) : Effect s (.systemCall nnn) s
  | ret (above : s.sp ≠ 0) : Effect s .ret (redirect s.stack[s.sp] { s with sp := s.sp - 1 })
  | jump (nnn : Addr12) : Effect s (.jump nnn) (redirect (addressOperand nnn) s)
  | call (nnn : Addr12) (below : s.sp ≠ 15) :
      Effect s (.call nnn)
        (redirect (addressOperand nnn) { s with sp := s.sp + 1, stack := s.stack.set (s.sp + 1).val s.pc })
  | skipIfEqualByte (x : RegIdx) (kk : Byte) : Effect s (.skipIfEqualByte x kk) (skipIf (s.reg x == kk) s)
  | skipIfNotEqualByte (x : RegIdx) (kk : Byte) : Effect s (.skipIfNotEqualByte x kk) (skipIf (s.reg x != kk) s)
  | skipIfRegistersEqual (x y : RegIdx) : Effect s (.skipIfRegistersEqual x y) (skipIf (s.reg x == s.reg y) s)
  | registers (i : Instr) (V : Vector Byte 16) (kept : KeepsUnlisted i s V) (linear : nextPc i s = s.pc + 2) :
      Effect s i { s with V := V }
  | random (x : RegIdx) (kk : Byte) (V : Vector Byte 16) (kept : KeepsUnlisted (.random x kk) s V) :
      Effect s (.random x kk) { s with V := V, draws := s.draws + 1 }
  | addToAddress (x : RegIdx) (V : Vector Byte 16) (I : Word) (kept : KeepsUnlisted (.addToAddress x) s V) :
      Effect s (.addToAddress x) { s with V := V, I := I }
  | loadImmediate (nnn : Addr12) : Effect s (.loadImmediate nnn) { s with I := addressOperand nnn }
  | writeDelay (x : Nibble) : Effect s (.writeDelay x) { s with delay := literalOperand x }
  | writeSound (x : Nibble) : Effect s (.writeSound x) { s with sound := literalOperand x }
  | storeBCD (x : RegIdx) (fits : effectiveAddress s 0 + (bcdDigits (s.reg x)).length ≤ 4096) :
      Effect s (.storeBCD x) { s with mem := s.mem.writeBytes (effectiveAddress s 0) (bcdDigits (s.reg x)) }
  | storeRegisters (x : RegIdx) (fits : effectiveAddress s 0 + (uptoRegs s x).length ≤ 4096) :
      Effect s (.storeRegisters x) { s with mem := s.mem.writeBytes (effectiveAddress s 0) (uptoRegs s x) }

/-! ### Every instruction has one of these effects -/

/-- A write of one register that the instruction may write. -/
theorem effect_setReg {i : Instr} {s : State} (x : RegIdx) (v : Byte) (writes : mayWrite i x = true)
    (linear : nextPc i s = s.pc + 2) : Effect s i (s.setReg x v) := by
  refine .registers i _ (fun k hk => ?_) linear
  have hne : k ≠ x := by
    rintro rfl
    simp [hk] at writes
  exact (reg_setReg s x k v).trans (if_neg hne)

/-- An 8-bit sum and its carry, when the instruction may write the destination and the flag register. -/
theorem effect_writeSum8 {i : Instr} {s : State} (x : RegIdx) (sum : Byte × Bool)
    (writes : ∀ k, mayWrite i k = (k == x || k == 15)) (linear : nextPc i s = s.pc + 2) :
    Effect s i (writeSum8 x sum s) := by
  refine .registers i _ (fun k hk => ?_) linear
  have hne : k ≠ x ∧ k ≠ 15 := by simpa [writes] using hk
  exact (reg_writeSum8 x k sum s).trans (by rw [if_neg hne.2, if_neg hne.1])

theorem effect_addToAddress {s : State} (x : RegIdx) (sum : Word × Bool) :
    Effect s (.addToAddress x) (writeSum16 sum s) := by
  refine .addToAddress x (writeSum16 sum s).V sum.1 fun k hk => ?_
  have hne : k ≠ 15 := by simpa [mayWrite] using hk
  exact (reg_writeSum16 k sum s).trans (if_neg hne)

theorem effect_random {s : State} (x : RegIdx) (kk v : Byte) :
    Effect s (.random x kk) ((randomDraw s).2.setReg x v) := by
  refine .random x kk _ fun k hk => ?_
  have hne : k ≠ x := by simpa [mayWrite] using hk
  exact (reg_setReg s x k v).trans (if_neg hne)

/-- Registers 0 to x loaded with x + 1 bytes. -/
theorem effect_setRegsFrom {s : State} (x : RegIdx) {bytes : List Byte} (count : bytes.length = x.toNat + 1) :
    Effect s (.loadRegisters x) (setRegsFrom 0 bytes s) := by
  have hx := x.isLt
  rw [setRegsFrom_eq]
  refine .registers _ _ (fun k hk => ?_) rfl
  have hgt : x.toNat < k.toNat := by simpa [mayWrite] using hk
  exact (reg_setRegsFrom 0 bytes s k (by omega)).trans (dif_neg (by omega))

theorem effect_ret {s t : State} (h : execRet s = .next t) : Effect s .ret t := by
  by_cases hsp : s.sp = 0
  · rw [execRet, pop_fault hsp] at h
    cases h
    exact .fault _ _ (.inr (.inl rfl))
  · rw [execRet, pop_ok hsp] at h
    cases h
    exact .ret hsp

theorem effect_call {nnn : Addr12} {s t : State} (h : execCall nnn s = .next t) : Effect s (.call nnn) t := by
  by_cases hsp : s.sp = 15
  · rw [execCall, push_fault hsp] at h
    cases h
    exact .fault _ _ (.inr (.inr (.inl ⟨nnn, rfl⟩)))
  · rw [execCall, push_ok hsp] at h
    cases h
    exact .call nnn hsp

theorem effect_storeBCD {x : RegIdx} {s t : State} (h : execStoreBCD x s = .next t) : Effect s (.storeBCD x) t := by
  have count := bcdDigits_length (s.reg x)
  obtain ⟨fits, e⟩ | ⟨-, e⟩ :=
    storeBytes_cases (a := effectiveAddress s 0) (bytes := bcdDigits (s.reg x)) s (by omega)
  all_goals
    rw [execStoreBCD, e] at h
    cases h
  · exact .storeBCD x fits
  · exact .fault _ _ (.inr (.inr (.inr (.inl ⟨x, rfl⟩))))

theorem effect_storeRegisters {x : RegIdx} {s t : State} (h : execStoreRegisters x s = .next t) :
    Effect s (.storeRegisters x) t := by
  have count := uptoRegs_length s x
  obtain ⟨fits, e⟩ | ⟨-, e⟩ := storeBytes_cases (a := effectiveAddress s 0) (bytes := uptoRegs s x) s (by omega)
  all_goals
    rw [execStoreRegisters, e] at h
    cases h
  · exact .storeRegisters x fits
  · exact .fault _ _ (.inr (.inr (.inr (.inr (.inl ⟨x, rfl⟩)))))

theorem effect_loadRegisters {x : RegIdx} {s t : State} (h : execLoadRegisters x s = .next t) :
    Effect s (.loadRegisters x) t := by
  obtain ⟨-, e⟩ | ⟨-, e⟩ := loadBytes_cases (a := effectiveAddress s 0) s (Nat.succ_pos x.toNat)
  all_goals
    rw [execLoadRegisters, uptoCount, e] at h
    cases h
  · exact effect_setRegsFrom x (Memory.readBytes_length _ _ _)
  · exact .fault _ _ (.inr (.inr (.inr (.inr (.inr ⟨x, rfl⟩)))))

theorem effect_unimplemented {i : Instr} {s t : State} (hi : i.executed = false)
    (h : raiseUnimplemented i s = .next t) : Effect s i t := by
  cases h
  exact .fault i _ (.inl hi)

/-- The execute phase of every instruction has an effect of the list. -/
theorem exec_effect {i : Instr} {s t : State} (h : exec i s = .next t) : Effect s i t := by
  cases i with
  | clearScreen => cases h; exact .clearScreen
  | systemCall nnn => cases h; exact .systemCall nnn
  | ret => exact effect_ret h
  | jump nnn => cases h; exact .jump nnn
  | call nnn => exact effect_call h
  | skipIfEqualByte x kk => cases h; exact .skipIfEqualByte x kk
  | skipIfNotEqualByte x kk => cases h; exact .skipIfNotEqualByte x kk
  | skipIfRegistersEqual x y => cases h; exact .skipIfRegistersEqual x y
  | loadByte x _ | loadRegister x _ | orRegister x _ | andRegister x _ | xorRegister x _ | readDelay x =>
    cases h
    exact effect_setReg x _ (beq_self_eq_true x) rfl
  | addByte x _ | addRegister x _ => cases h; exact effect_writeSum8 x _ (fun _ => rfl) rfl
  | random x kk => cases h; exact effect_random x kk _
  | loadImmediate nnn => cases h; exact .loadImmediate nnn
  | addToAddress x => cases h; exact effect_addToAddress x _
  | writeDelay x => cases h; exact .writeDelay x
  | writeSound x => cases h; exact .writeSound x
  | storeBCD x => exact effect_storeBCD h
  | storeRegisters x => exact effect_storeRegisters h
  | loadRegisters x => exact effect_loadRegisters h
  | subtractRegister | shiftRight | subtractReverse | shiftLeft | skipIfRegistersNotEqual | jumpOffset | draw
  | skipIfKey | skipIfNotKey | waitKey | loadFontAddress => exact effect_unimplemented rfl h

/-! ### The frame of each element -/

namespace Effect

variable {i : Instr} {s t : State}

theorem reg_kept (e : Effect s i t) {k : RegIdx} (hk : mayWrite i k = false) : t.reg k = s.reg k := by
  cases e with
  | registers _ V kept => exact kept k hk
  | random x kk V kept => exact kept k hk
  | addToAddress x V I kept => exact kept k hk
  | skipIfEqualByte | skipIfNotEqualByte | skipIfRegistersEqual => simp only [State.reg, skipIf_V]
  | _ => rfl

theorem pc_frame (e : Effect s i t) (h : t.pc ≠ s.pc) :
    i = .ret ∨ (∃ nnn, i = .jump nnn) ∨ (∃ nnn, i = .call nnn) ∨ (∃ x kk, i = .skipIfEqualByte x kk) ∨
      (∃ x kk, i = .skipIfNotEqualByte x kk) ∨ ∃ x y, i = .skipIfRegistersEqual x y := by
  cases e with
  | ret => exact .inl rfl
  | jump nnn => exact .inr (.inl ⟨nnn, rfl⟩)
  | call nnn => exact .inr (.inr (.inl ⟨nnn, rfl⟩))
  | skipIfEqualByte x kk => exact .inr (.inr (.inr (.inl ⟨x, kk, rfl⟩)))
  | skipIfNotEqualByte x kk => exact .inr (.inr (.inr (.inr (.inl ⟨x, kk, rfl⟩))))
  | skipIfRegistersEqual x y => exact .inr (.inr (.inr (.inr (.inr ⟨x, y, rfl⟩))))
  | _ => exact absurd rfl h

theorem I_frame (e : Effect s i t) (h : t.I ≠ s.I) :
    (∃ nnn, i = .loadImmediate nnn) ∨ ∃ x, i = .addToAddress x := by
  cases e with
  | loadImmediate nnn => exact .inl ⟨nnn, rfl⟩
  | addToAddress x => exact .inr ⟨x, rfl⟩
  | _ => exact absurd (by simp) h

theorem mem_frame (e : Effect s i t) (h : t.mem ≠ s.mem) : (∃ x, i = .storeBCD x) ∨ ∃ x, i = .storeRegisters x := by
  cases e with
  | storeBCD x => exact .inl ⟨x, rfl⟩
  | storeRegisters x => exact .inr ⟨x, rfl⟩
  | _ => exact absurd (by simp) h

/-- A byte that a store changes is one of those it writes. -/
theorem read_frame (e : Effect s i t) {a : Nat} (h : t.mem.read a ≠ s.mem.read a) :
    (∃ x, i = .storeBCD x ∧ effectiveAddress s 0 ≤ a ∧ a ≤ effectiveAddress s 2) ∨
      ∃ x, i = .storeRegisters x ∧ effectiveAddress s 0 ≤ a ∧ a ≤ effectiveAddress s x.toNat := by
  have inside {bytes : List Byte} (h : (s.mem.writeBytes (effectiveAddress s 0) bytes).read a ≠ s.mem.read a) :
      effectiveAddress s 0 ≤ a ∧ a < effectiveAddress s bytes.length := by
    by_contra hout
    refine h (Memory.read_writeBytes_outside ?_)
    simp only [effectiveAddress] at hout ⊢
    omega
  cases e with
  | storeBCD x =>
    obtain ⟨hlow, hhigh⟩ := inside h
    exact .inl ⟨x, rfl, hlow, Nat.le_of_lt_succ hhigh⟩
  | storeRegisters x =>
    obtain ⟨hlow, hhigh⟩ := inside h
    rw [uptoRegs_length] at hhigh
    exact .inr ⟨x, rfl, hlow, Nat.le_of_lt_succ hhigh⟩
  | _ => exact absurd (by simp) h

theorem stack_frame (e : Effect s i t) (h : t.stack ≠ s.stack) : ∃ nnn, i = .call nnn := by
  cases e with
  | call nnn => exact ⟨nnn, rfl⟩
  | _ => exact absurd (by simp) h

theorem sp_frame (e : Effect s i t) (h : t.sp ≠ s.sp) : i = .ret ∨ ∃ nnn, i = .call nnn := by
  cases e with
  | ret => exact .inl rfl
  | call nnn => exact .inr ⟨nnn, rfl⟩
  | _ => exact absurd (by simp) h

theorem suppress_frame (e : Effect s i t) (h : t.suppress ≠ s.suppress) :
    i = .ret ∨ (∃ nnn, i = .jump nnn) ∨ ∃ nnn, i = .call nnn := by
  cases e with
  | ret => exact .inl rfl
  | jump nnn => exact .inr (.inl ⟨nnn, rfl⟩)
  | call nnn => exact .inr (.inr ⟨nnn, rfl⟩)
  | _ => exact absurd (by simp) h

theorem delay_frame (e : Effect s i t) (h : t.delay ≠ s.delay) : ∃ x, i = .writeDelay x := by
  cases e with
  | writeDelay x => exact ⟨x, rfl⟩
  | _ => exact absurd (by simp) h

theorem sound_frame (e : Effect s i t) (h : t.sound ≠ s.sound) : ∃ x, i = .writeSound x := by
  cases e with
  | writeSound x => exact ⟨x, rfl⟩
  | _ => exact absurd (by simp) h

theorem draws_frame (e : Effect s i t) (h : t.draws ≠ s.draws) : ∃ x kk, i = .random x kk := by
  cases e with
  | random x kk => exact ⟨x, kk, rfl⟩
  | _ => exact absurd (by simp) h

theorem fault_frame (e : Effect s i t) (h : t.fault ≠ s.fault) : CanFault i := by
  cases e with
  | fault _ F can => exact can
  | _ => exact absurd (by simp) h

/-- An instruction that raises a fault changes nothing else (rule R108). -/
theorem eq_raiseFault (e : Effect s i t) (hs : Running s) {F : FaultRecord} (hf : t.fault = some F) :
    t = raiseFault F s := by
  cases e with
  | fault _ G can =>
    obtain rfl : G = F := Option.some.inj hf
    rfl
  | _ => simp [show s.fault = none from hs] at hf

/-! ### Where the advance leaves pc -/

/-- After the advance, pc is where `nextPc` says (rules R107, R113). -/
theorem advance_pc_eq (e : Effect s i t) (hs : s.suppress = false) (ht : Running t) : (advance t).pc = nextPc i s := by
  have skip (c : Bool) : (advance (skipIf c s)).pc = if c then s.pc + 4 else s.pc + 2 := by
    cases c <;> simp [hs, pcStep, BitVec.add_assoc]
  cases e with
  | fault => cases ht
  | skipIfEqualByte x kk => simpa [nextPc] using skip (s.reg x == kk)
  | skipIfNotEqualByte x kk => simpa [nextPc] using skip (s.reg x != kk)
  | skipIfRegistersEqual x y => simpa [nextPc] using skip (s.reg x == s.reg y)
  | registers _ V kept linear => simpa [hs, pcStep] using linear.symm
  | _ => simp [hs, nextPc, pcStep]

end Effect

end Sys2Proof.Machine
end

section
/-! PROOF. The obligations on what one step writes: the frame of all 35 instructions, the next pc, and the invariant of
rule R238. -/

namespace Sys2Proof.Machine

/-- A step that answers a next state began without a fault (rule R100). -/
theorem running_of_stepWith {cfg : Config} {s t : State} (h : stepWith cfg s = .next t) : Running s := by
  cases hf : s.fault with
  | none => exact hf
  | some F =>
    rw [stepWith_faulted hf] at h
    cases h

/-- What an instruction's execute and advance answer is the end of what its execute phase answers. -/
theorem execute_next {i : Instr} {s t : State} (h : execute i s = .next t) :
    ∃ u, exec i s = .next u ∧ t = finish u := by
  rw [execute] at h
  cases he : exec i s with
  | next u =>
    rw [he] at h
    exact ⟨u, rfl, (Host.Outcome.next.inj h).symm⟩
  | fault r => rw [he] at h; cases h
  | refused r => rw [he] at h; cases h

/-- Settles O19, one frame lemma per clause. -/
theorem onlyTheListedInstructionsWriteEachElement : Obligations.OnlyTheListedInstructionsWriteEachElement := by
  intro i s t h
  have e := exec_effect h
  exact ⟨fun _ => e.reg_kept, e.pc_frame, e.I_frame, e.mem_frame, fun _ => e.read_frame, e.stack_frame, e.sp_frame,
    e.suppress_frame, e.delay_frame, e.sound_frame, e.draws_frame, e.fault_frame⟩

/-- Settles O18: the step is the instruction's effect and then the advance. -/
theorem nextPcOfEveryInstruction : Obligations.NextPcOfEveryInstruction := by
  intro cfg s t i hs hsup hf hd hstep ht
  rw [stepWith_encode hs hf hd] at hstep
  obtain ⟨u, hu, rfl⟩ := execute_next hstep
  have hru : u.fault = none := (finish_fault u).symm.trans ht
  rw [finish_running hru]
  exact ⟨(exec_effect hu).advance_pc_eq hsup hru, rfl⟩

/-! ### The invariant (rule R238) -/

/-- Taking a fault keeps the invariant, which does not speak of the fault. -/
theorem Inv.raiseFault {s : State} (h : Inv s) (F : FaultRecord) : Inv (raiseFault F s) :=
  ⟨h.suppress_clear, h.pc_le, h.stack_zero, h.stack_le, h.mem_wf⟩

namespace Effect

variable {i : Instr} {s t : State}

/-- From a fetchable pc the next one is at most 4 further, a 12-bit address or a stack entry (rule R29). -/
theorem nextPc_le (e : Effect s i t) (hi : Inv s) (hpc : s.pc.toNat ≤ 4094) (ht : Running t) :
    (nextPc i s).toNat ≤ 4098 := by
  have by_two : (s.pc + 2).toNat ≤ 4098 := by bv_omega
  have by_four : (s.pc + 4).toNat ≤ 4098 := by bv_omega
  cases e with
  | fault => cases ht
  | ret => exact (hi.stack_le s.sp).trans (by decide)
  | jump nnn | call nnn =>
    have := nnn.isLt
    rw [nextPc, addressOperand_toNat]
    omega
  | skipIfEqualByte | skipIfNotEqualByte | skipIfRegistersEqual =>
    rw [nextPc]
    split <;> assumption
  | registers _ V kept linear => rwa [linear]
  | _ => exact by_two

/-- A call pushes the pc it was fetched at, above stack[0]; nothing else writes the stack (rules R34, R124). -/
theorem stack_bounds (e : Effect s i t) (hi : Inv s) (hpc : s.pc.toNat ≤ 4094) :
    t.stack[0] = 0 ∧ ∀ k : Fin 16, t.stack[k].toNat ≤ 4094 := by
  have kept := And.intro hi.stack_zero hi.stack_le
  cases e with
  | call nnn below =>
    have hpos := sp_succ_val below
    refine ⟨?_, fun k => ?_⟩
    · exact (Vector.getElem_set_ne (s.sp + 1).isLt (by decide) (by omega)).trans hi.stack_zero
    · rw [redirect_stack, stack_set]
      split
      · exact hpc
      · exact hi.stack_le k
  | skipIfEqualByte | skipIfNotEqualByte | skipIfRegistersEqual => simpa only [skipIf_stack] using kept
  | _ => exact kept

/-- The stores keep memory canonical; nothing else writes it. -/
theorem mem_wf (e : Effect s i t) (h : s.mem.wf = true) : t.mem.wf = true := by
  cases e with
  | storeBCD x fits => exact Memory.writeBytes_wf h fits
  | storeRegisters x fits => exact Memory.writeBytes_wf h fits
  | _ => simpa using h

/-- An instruction fetched from a state that meets the invariant ends in one that does. -/
theorem finish_inv (e : Effect s i t) (hi : Inv s) (hs : Running s) (hpc : s.pc.toNat ≤ 4094) : Inv (finish t) := by
  cases hf : t.fault with
  | some F =>
    rw [finish_faulted hf, e.eq_raiseFault hs hf]
    exact hi.raiseFault F
  | none =>
    rw [finish_running hf]
    obtain ⟨hzero, hle⟩ := e.stack_bounds hi hpc
    exact
      { suppress_clear := rfl
        pc_le := by
          rw [e.advance_pc_eq hi.suppress_clear hf]
          exact e.nextPc_le hi hpc hf
        stack_zero := hzero
        stack_le := hle
        mem_wf := e.mem_wf hi.mem_wf }

end Effect

/-- Settles O43, along what a step can do: a fetch fault, a decode fault, or an instruction. -/
theorem stepKeepsTheInvariant : Obligations.StepKeepsTheInvariant := by
  intro cfg s t hi h
  have hs := running_of_stepWith h
  obtain ⟨-, rfl⟩ | ⟨-, -, rfl⟩ | ⟨hpc, i, u, -, hu, rfl⟩ := stepWith_cases hs h
  · exact hi.raiseFault _
  · exact hi.raiseFault _
  · exact (exec_effect hu).finish_inv hi hs hpc

theorem reset_inv : Inv State.reset :=
  { suppress_clear := rfl
    pc_le := by decide
    stack_zero := rfl
    stack_le := by decide
    mem_wf := reset_mem_wf }

/-- Settles O44: a fresh machine is the reset state but for its place in the random source. -/
theorem resetAndFreshMachinesMeetTheInvariant : Obligations.ResetAndFreshMachinesMeetTheInvariant :=
  ⟨reset_inv, fun _ _ => ⟨{ reset_inv with }, fun _ => ⟨rfl, fun a _ => reset_mem_read a⟩⟩⟩

end Sys2Proof.Machine
end

section
/-! PROOF. No step reads the sound timer (rules R35, R207): every operation commutes with setting it, write-sound apart,
which overwrites it. -/

namespace Sys2Proof.Machine

/-- `s` with another value of the sound timer. -/
def withSound (v : Byte) (s : State) : State := { s with sound := v }

section WithSound

variable {v : Byte} {s t : State}

theorem skipIf_withSound (taken : Bool) : skipIf taken (withSound v s) = withSound v (skipIf taken s) := by
  cases taken <;> rfl

/-- Neither taking a fault nor the advance writes the sound timer. -/
@[simp] theorem finish_sound (s : State) : (finish s).sound = s.sound := by
  unfold finish
  split <;> rfl

theorem finish_withSound : finish (withSound v s) = withSound v (finish s) := by
  cases hf : s.fault with
  | none =>
    rw [finish_running hf, finish_running (show (withSound v s).fault = none from hf)]
    rfl
  | some F => rw [finish_faulted hf, finish_faulted (show (withSound v s).fault = some F from hf)]

/-- A settled check that commutes with setting the sound timer ends alike. -/
theorem settle_withSound {r r' : Except FaultRecord State} (hr : r' = r.map (withSound v))
    (h : settle s r = .next t) : settle (withSound v s) r' = .next (withSound v t) := by
  subst hr
  cases r <;> cases h <;> rfl

theorem push_withSound (w : Word) : push w (withSound v s) = (push w s).map (withSound v) := by
  by_cases hsp : s.sp = 15
  · rw [push_fault hsp, push_fault (show (withSound v s).sp = 15 from hsp)]
    rfl
  · rw [push_ok hsp, push_ok (show (withSound v s).sp ≠ 15 from hsp)]
    rfl

theorem pop_withSound : pop (withSound v s) = (pop s).map fun popped => (popped.1, withSound v popped.2) := by
  by_cases hsp : s.sp = 0
  · rw [pop_fault hsp, pop_fault (show (withSound v s).sp = 0 from hsp)]
    rfl
  · rw [pop_ok hsp, pop_ok (show (withSound v s).sp ≠ 0 from hsp)]
    rfl

theorem storeBytes_withSound {a : Nat} {bytes : List Byte} (hn : 0 < bytes.length) :
    storeBytes a bytes (withSound v s) = (storeBytes a bytes s).map (withSound v) := by
  obtain ⟨fits, e⟩ | ⟨out, e⟩ := storeBytes_cases (a := a) s hn
  · rw [e, storeBytes_ok fits]
    rfl
  · rw [e, storeBytes_fault hn out]
    rfl

theorem loadBytes_withSound {a n : Nat} (hn : 0 < n) : loadBytes a n (withSound v s) = loadBytes a n s := by
  obtain ⟨fits, e⟩ | ⟨out, e⟩ := loadBytes_cases (a := a) s hn
  · exact (loadBytes_ok fits).trans e.symm
  · exact (loadBytes_fault hn out).trans e.symm

theorem setRegsFrom_withSound (k : Nat) (bytes : List Byte) (s : State) :
    setRegsFrom k bytes (withSound v s) = withSound v (setRegsFrom k bytes s) := by
  induction bytes generalizing k s with
  | nil => rfl
  | cons b bs ih => exact ih (k + 1) (s.setReg (BitVec.ofNat 4 k) b)

theorem regsFrom_withSound (k n : Nat) : regsFrom (withSound v s) k n = regsFrom s k n := by
  induction n generalizing k with
  | zero => rfl
  | succ n ih => exact congrArg _ (ih (k + 1))

/-- The execute phase of an instruction leaves the sound timer's new value as it is, or overwrites it as it would the
old one. -/
theorem exec_withSound {i : Instr} (v : Byte) (h : exec i s = .next t) :
    ∃ w, exec i (withSound v s) = .next (withSound w t) ∧ (w = v ∨ w = t.sound) := by
  cases i with
  | writeSound x => cases h; exact ⟨_, rfl, .inr rfl⟩
  | skipIfEqualByte | skipIfNotEqualByte | skipIfRegistersEqual =>
    cases h
    exact ⟨v, congrArg _ (skipIf_withSound _), .inl rfl⟩
  | ret =>
    refine ⟨v, settle_withSound ?_ h, .inl rfl⟩
    rw [pop_withSound]
    cases pop s <;> rfl
  | call nnn =>
    refine ⟨v, settle_withSound ?_ h, .inl rfl⟩
    rw [show (withSound v s).pc = s.pc from rfl, push_withSound]
    cases push s.pc s <;> rfl
  | storeBCD x => exact ⟨v, settle_withSound (storeBytes_withSound (Nat.succ_pos 2)) h, .inl rfl⟩
  | storeRegisters x =>
    refine ⟨v, settle_withSound ?_ h, .inl rfl⟩
    rw [uptoRegs, regsFrom_withSound]
    exact storeBytes_withSound (uptoRegs_length s x ▸ Nat.succ_pos _)
  | loadRegisters x =>
    refine ⟨v, settle_withSound ?_ h, .inl rfl⟩
    rw [show effectiveAddress (withSound v s) 0 = effectiveAddress s 0 from rfl,
      loadBytes_withSound (n := uptoCount x) (Nat.succ_pos x.toNat)]
    cases loadBytes (effectiveAddress s 0) (uptoCount x) s with
    | error F => rfl
    | ok bytes => exact congrArg _ (setRegsFrom_withSound 0 bytes s)
  | _ => cases h; exact ⟨v, rfl, .inl rfl⟩

end WithSound

/-- Settles O49, along what a step can do: the fetch and the decoder read memory and pc alone, the execute phase does
not read the sound timer. -/
theorem soundTimerIsNeverRead : Obligations.SoundTimerIsNeverRead := by
  intro cfg s t v h
  have hs := running_of_stepWith h
  have hs' : Running (withSound v s) := hs
  obtain ⟨hpc, rfl⟩ | ⟨hpc, hd, rfl⟩ | ⟨hpc, i, u, hd, hu, rfl⟩ := stepWith_cases hs h
  · exact ⟨v, stepWith_fetch_fault hs' hpc, .inl rfl⟩
  · exact ⟨v, stepWith_unrecognized hs' hpc hd, .inl rfl⟩
  · obtain ⟨w, hw, kept⟩ := exec_withSound v hu
    refine ⟨w, (stepWith_instr hs' hpc hd).trans ?_, ?_⟩
    · rw [execute, hw]
      exact congrArg _ finish_withSound
    · rwa [finish_sound]

end Sys2Proof.Machine
end

section
/-! PROOF. The obligations on the host's calls: a faulted machine stays as it is but for the timers, and observation
changes nothing. -/

namespace Sys2Proof.Machine

/-- `s` but for the timers. -/
def SameButTimers (s t : State) : Prop := t = { s with delay := t.delay, sound := t.sound }

theorem SameButTimers.trans {s t u : State} (h : SameButTimers s t) (h' : SameButTimers t u) : SameButTimers s u := by
  unfold SameButTimers at *
  rw [h', h]

theorem timerAction_sameButTimers (a : TimerAction) (s : State) : SameButTimers s (a.apply s) := by
  cases a <;> rfl

/-- A run of a faulted machine returns in its first step, without a change (rules R100, R110). -/
theorem runFor_faulted {cfg : Config} {between : List (List TimerAction)} {s t : State} {F G : FaultRecord}
    (hF : s.fault = some F) (h : runFor cfg between s = some (t, G)) : t = s := by
  cases between with
  | nil => cases h
  | cons actions rest =>
    rw [runFor, stepCall_faulted hF] at h
    cases h
    rfl

/-- One call on a started, faulted machine, other than a reset, changes the timers alone (rules R36, R100, R216). -/
theorem call_faulted {cfg : Config} {w w' : Session} {c : HostCall} {r : Reply} {F : FaultRecord}
    (started : w.started = true) (hF : w.state.fault = some F) (hc : c ≠ .reset) (h : w.call cfg c = some (w', r)) :
    w'.started = true ∧ SameButTimers w.state w'.state := by
  cases c with
  | load source => simp [Session.call, Session.load, started] at h
  | step =>
    rw [Session.call, stepCall_faulted hF] at h
    cases h
    exact ⟨rfl, rfl⟩
  | run between =>
    rw [Session.call, Session.run] at h
    split at h
    · obtain ⟨⟨t, G⟩, hrun, e⟩ := Option.map_eq_some_iff.mp h
      obtain rfl := runFor_faulted hF hrun
      cases e
      exact ⟨rfl, rfl⟩
    · cases h
  | reset => exact absurd rfl hc
  | timer a =>
    rw [Session.call] at h
    split at h
    · cases h
      exact ⟨started, timerAction_sameButTimers a w.state⟩
    · cases h
  | snapshot | debugDump => cases h; exact ⟨started, rfl⟩
  | peek a =>
    obtain ⟨b, -, e⟩ := Option.map_eq_some_iff.mp h
    cases e
    exact ⟨started, rfl⟩

/-- A sequence of such calls changes the timers alone. -/
theorem calls_faulted {cfg : Config} {calls : List HostCall} {w w' : Session} {F : FaultRecord}
    (started : w.started = true) (hF : w.state.fault = some F) (hc : HostCall.reset ∉ calls)
    (h : w.calls cfg calls = some w') : SameButTimers w.state w'.state := by
  induction calls generalizing w with
  | nil => cases h; rfl
  | cons c rest ih =>
    rw [List.mem_cons, not_or] at hc
    rw [Session.calls] at h
    cases hcall : w.call cfg c with
    | none => rw [hcall] at h; cases h
    | some next =>
      rw [hcall] at h
      obtain ⟨started', same⟩ := call_faulted started hF (Ne.symm hc.1) hcall
      exact same.trans (ih started' (by rw [same, hF]) hc.2 h)

/-- Settles O50: what is kept but for the timers keeps its fault. -/
theorem faultLastsUntilReset : Obligations.FaultLastsUntilReset := by
  intro cfg calls w w' F started hF hc h
  have same := calls_faulted started hF hc h
  exact ⟨same, by rw [same, hF]⟩

/-- Settles O58. -/
theorem observationChangesNothing : Obligations.ObservationChangesNothing := by
  intro cfg w a
  have hpeek : w.call cfg (.peek a) = (peek a w.state).map fun b => (w, .byte b) := rfl
  refine ⟨⟨_, rfl, rfl, rfl, rfl, rfl, rfl, rfl, rfl⟩, ⟨_, rfl, rfl, rfl, rfl⟩, fun ha => ?_, fun ha => ?_⟩
  · rw [hpeek, peek, if_pos ha]
    rfl
  · rw [hpeek, peek, if_neg (by omega)]
    rfl

end Sys2Proof.Machine
end

section
/-! PROOF. The two decoders agree on every word, and every well-formed instruction decodes from its own word (rules R56,
R70, R75 to R82, R86, R90). Dropping the unimplemented patterns is filtering the outcome; the rows of a mask are the
entries of a keyed table; so the mask decoder is the table decoder, family by family. -/

namespace Sys2Proof

/-! ### Dropping the unimplemented patterns (rule R86) -/

/-- Some word may meet both rows: their patterns agree where both masks look. -/
def OpRow.overlaps (q r : OpRow) : Bool := q.pattern &&& r.mask == r.pattern &&& q.mask

theorem OpRow.overlaps_of_meets {q r : OpRow} {op : Opcode} (hq : op &&& q.mask = q.pattern)
    (hr : op &&& r.mask = r.pattern) : q.overlaps r = true := by
  rw [OpRow.overlaps, beq_iff_eq, ← hq, ← hr, BitVec.and_assoc, BitVec.and_assoc, BitVec.and_comm q.mask]

/-- The row's flag is that of the instructions it builds. -/
theorem executed_build : ∀ r ∈ opRows, ∀ op, (r.build op).executed = r.executed := by
  simp [opRows, rowsFFFF, rowsF0FF, rowsF00F, rowsF000, Instr.executed]

/-- An unimplemented row shares no word with a row after it. -/
theorem opRows_unimplemented_apart :
    opRows.Pairwise fun q r => q.executed = false → q.overlaps r = false := by decide

theorem firstMatch_eq_none {rows : List OpRow} {op : Opcode} (h : ∀ r ∈ rows, op &&& r.mask ≠ r.pattern) :
    firstMatch rows op = none := by
  induction rows with
  | nil => rfl
  | cons r rs ih =>
    rw [List.forall_mem_cons] at h
    rw [firstMatch, if_neg h.1, ih h.2]

/-- The rows kept match what the rows match, when that is kept. -/
theorem firstMatch_filter {rows : List OpRow} (drop : Bool) (op : Opcode)
    (flag : ∀ r ∈ rows, (r.build op).executed = r.executed)
    (apart : rows.Pairwise fun q r => q.executed = false → q.overlaps r = false) :
    firstMatch (rows.filter fun r => r.executed || !drop) op =
      (firstMatch rows op).filter fun i => i.executed || !drop := by
  induction rows with
  | nil => rfl
  | cons r rs ih =>
    rw [List.forall_mem_cons] at flag
    rw [List.pairwise_cons] at apart
    have ih := ih flag.2 apart.2
    by_cases kept : (r.executed || !drop) = true
    · rw [List.filter_cons, if_pos kept, firstMatch, firstMatch, ih]
      split
      · rw [Option.filter_some, flag.1, if_pos kept]
      · rfl
    · rw [List.filter_cons, if_neg kept, firstMatch, ih]
      split
      · rename_i meets
        obtain ⟨unimplemented, -⟩ : r.executed = false ∧ drop = true := by simpa using kept
        rw [Option.filter_some, flag.1, if_neg kept, ← ih]
        refine firstMatch_eq_none fun q hq meets' => ?_
        have := apart.1 q (List.mem_of_mem_filter hq) unimplemented
        rw [OpRow.overlaps_of_meets meets meets'] at this
        cases this
      · rfl

theorem decodeMask_eq_filter (drop : Bool) (op : Opcode) :
    decodeMask drop op = (firstMatch opRows op).filter fun i => i.executed || !drop :=
  firstMatch_filter drop op (fun r hr => executed_build r hr op) opRows_unimplemented_apart

/-! ### The rows of a mask as a keyed table (rules R78 to R80) -/

theorem firstMatch_append (rows rows' : List OpRow) (op : Opcode) :
    firstMatch (rows ++ rows') op = (firstMatch rows op).or (firstMatch rows' op) := by
  induction rows with
  | nil => rfl
  | cons r rs ih =>
    rw [List.cons_append, firstMatch, firstMatch, ih]
    split <;> rfl

/-- The row of an entry of a family keyed on the lowest byte. -/
def byteRow (c : Nibble) (entry : Byte × (RegIdx → Instr)) : OpRow :=
  ⟨0xF0FF, encodeXK c 0 entry.1, (entry.2 0).executed, fun op => entry.2 (xField op)⟩

/-- The row of an entry of a family keyed on the lowest nibble. -/
def nibbleRow (c : Nibble) (entry : Nibble × (RegIdx → RegIdx → Instr)) : OpRow :=
  ⟨0xF00F, encodeXYN c 0 0 entry.1, (entry.2 0 0).executed, fun op => entry.2 (xField op) (yField op)⟩

theorem rowsF0FF_eq : rowsF0FF = keysE.map (byteRow 0xE) ++ keysF.map (byteRow 0xF) := rfl

theorem rowsF00F_eq : rowsF00F = keys5.map (nibbleRow 5) ++ keys8.map (nibbleRow 8) ++ keys9.map (nibbleRow 9) := rfl

theorem firstMatch_byteRows (c : Nibble) (keys : List (Byte × (RegIdx → Instr))) (op : Opcode) :
    firstMatch (keys.map (byteRow c)) op = if highNibble op = c then familyByByte keys op else none := by
  induction keys with
  | nil => simp [firstMatch, familyByByte]
  | cons entry rest ih =>
    obtain ⟨key, build⟩ := entry
    rw [List.map_cons, firstMatch, ih]
    simp only [byteRow, row_F0FF rfl, familyByByte, lookup_entry]
    split_ifs <;> simp_all

theorem firstMatch_nibbleRows (c : Nibble) (keys : List (Nibble × (RegIdx → RegIdx → Instr))) (op : Opcode) :
    firstMatch (keys.map (nibbleRow c)) op = if highNibble op = c then familyByNibble keys op else none := by
  induction keys with
  | nil => simp [firstMatch, familyByNibble]
  | cons entry rest ih =>
    obtain ⟨key, build⟩ := entry
    rw [List.map_cons, firstMatch, ih]
    simp only [nibbleRow, row_F00F rfl, familyByNibble, lookup_entry]
    split_ifs <;> simp_all

/-- The families of one variant each, with mask F000. -/
def wholeFamilies : List (Nibble × (Opcode → Instr)) :=
  [ (0x0, fun op => .systemCall (nnnField op)),
    (0x1, fun op => .jump (nnnField op)),
    (0x2, fun op => .call (nnnField op)),
    (0x3, fun op => .skipIfEqualByte (xField op) (kkField op)),
    (0x4, fun op => .skipIfNotEqualByte (xField op) (kkField op)),
    (0x6, fun op => .loadByte (xField op) (kkField op)),
    (0x7, fun op => .addByte (xField op) (kkField op)),
    (0xA, fun op => .loadImmediate (nnnField op)),
    (0xB, fun op => .jumpOffset (nnnField op)),
    (0xC, fun op => .random (xField op) (kkField op)),
    (0xD, fun op => .draw (xField op) (yField op) (nField op)) ]

/-- The row of such a family. -/
def familyRow (entry : Nibble × (Opcode → Instr)) : OpRow :=
  ⟨0xF000, encodeXYN entry.1 0 0 0, (entry.2 0).executed, entry.2⟩

theorem rowsF000_eq : rowsF000 = wholeFamilies.map familyRow := rfl

theorem firstMatch_familyRows (families : List (Nibble × (Opcode → Instr))) (op : Opcode) :
    firstMatch (families.map familyRow) op = (families.lookup (highNibble op)).map fun build => build op := by
  induction families with
  | nil => rfl
  | cons entry rest ih =>
    obtain ⟨c, build⟩ := entry
    rw [List.map_cons, firstMatch, ih]
    simp only [familyRow, row_F000 rfl, lookup_entry]
    split_ifs <;> rfl

/-- The two words that family 0 singles out (rule R80). -/
theorem firstMatch_rowsFFFF (op : Opcode) :
    firstMatch rowsFFFF op =
      if highNibble op = 0 then
        if xField op = 0 ∧ kkField op = 0xE0 then some .clearScreen
        else if xField op = 0 ∧ kkField op = 0xEE then some .ret else none
      else none := by
  have e0 : op &&& 0xFFFF = 0x00E0 ↔ _ := row_FFFF (c := 0) (x := 0) (kk := 0xE0) rfl op
  have ee : op &&& 0xFFFF = 0x00EE ↔ _ := row_FFFF (c := 0) (x := 0) (kk := 0xEE) rfl op
  simp only [rowsFFFF, firstMatch, e0, ee]
  by_cases h : highNibble op = 0 <;> simp only [h, true_and, false_and, if_true, if_false]

/-! ### The two decoders agree (rules R81, R82) -/

/-- What the tables of rules R79 and R80 hold for a word, the unimplemented variants included. -/
def tableEntry (op : Opcode) : Option Instr := firstLevel[(highNibble op).toNat]?.bind fun family => family op

theorem decodeTable_eq_filter (drop : Bool) (op : Opcode) :
    decodeTable drop op = (tableEntry op).filter fun i => i.executed || !drop := by
  rw [decodeTable, tableEntry]
  cases firstLevel[(highNibble op).toNat]? <;> rfl

/-- Family 0 singles out two words before it reads a system-call (rule R80). -/
theorem family0_eq (op : Opcode) :
    family0 op =
      (if xField op = 0 ∧ kkField op = 0xE0 then some Instr.clearScreen
        else if xField op = 0 ∧ kkField op = 0xEE then some .ret else none).or (some (.systemCall (nnnField op))) := by
  rw [family0]
  split_ifs <;> rfl

/-- The first matching row of all 35 is the tables' entry, family by family. -/
theorem firstMatch_opRows (op : Opcode) : firstMatch opRows op = tableEntry op := by
  simp only [opRows, rowsF0FF_eq, rowsF00F_eq, rowsF000_eq, firstMatch_append, firstMatch_byteRows,
    firstMatch_nibbleRows, firstMatch_familyRows, firstMatch_rowsFFFF]
  obtain h | h | h | h | h | h | h | h | h | h | h | h | h | h | h | h := nibble_cases (highNibble op)
  all_goals
    simp [h, tableEntry, firstLevel, wholeFamilies, lookup_entry, family0_eq]

/-- The two decoders agree on every word (rule R81, decision D5). -/
theorem decodeMask_eq_decodeTable (drop : Bool) (op : Opcode) : decodeMask drop op = decodeTable drop op := by
  rw [decodeMask_eq_filter, firstMatch_opRows, decodeTable_eq_filter]

/-- Either strategy answers the tables' entry, unless that is dropped. -/
theorem DecoderStrategy.run_eq (strategy : DecoderStrategy) (drop : Bool) (op : Opcode) :
    strategy.run drop op = (tableEntry op).filter fun i => i.executed || !drop := by
  rw [← decodeTable_eq_filter]
  cases strategy with
  | mask => exact decodeMask_eq_decodeTable drop op
  | table => rfl

/-! ### Decoding what was encoded (rules R75, R76) -/

/-- Family 0 reads a word as a system-call unless it is 00E0 or 00EE. -/
theorem family0_systemCall {nnn : Addr12} (h0 : nnn ≠ 0x0E0) (he : nnn ≠ 0x0EE) :
    family0 (encodeA 0 nnn) = some (.systemCall nnn) := by
  have apart (kk : Byte) (hne : nnn ≠ nnnField (encodeXK 0 0 kk)) :
      ¬(xField (encodeA 0 nnn) = 0 ∧ kkField (encodeA 0 nnn) = kk) := by
    rintro ⟨hx, hkk⟩
    have e := encodeXK_fields (encodeA 0 nnn)
    rw [highNibble_encodeA, hx, hkk] at e
    exact hne (by rw [e, nnnField_encodeA])
  rw [family0, if_neg (apart 0xE0 h0), if_neg (apart 0xEE he), nnnField_encodeA]

theorem tableEntry_encode {i : Instr} (h : i.wf = true) : tableEntry (encode i) = some i := by
  cases i with
  | clearScreen | ret => rfl
  | systemCall nnn =>
    obtain ⟨h0, he⟩ : nnn ≠ 0x0E0 ∧ nnn ≠ 0x0EE := by simpa [Instr.wf] using h
    rw [tableEntry, encode, highNibble_encodeA]
    exact family0_systemCall h0 he
  | jump | call | loadImmediate | jumpOffset => simp [tableEntry, firstLevel, encode]
  | skipIfEqualByte | skipIfNotEqualByte | loadByte | addByte | random | draw => simp [tableEntry, firstLevel, encode]
  | skipIfRegistersEqual | loadRegister | orRegister | andRegister | xorRegister | addRegister | subtractRegister
  | shiftRight | subtractReverse | shiftLeft | skipIfRegistersNotEqual =>
    simp [tableEntry, firstLevel, encode, familyByNibble, keys5, keys8, keys9, lookup_entry]
  | skipIfKey | skipIfNotKey | readDelay | waitKey | writeDelay | writeSound | addToAddress | loadFontAddress | storeBCD
  | storeRegisters | loadRegisters =>
    simp [tableEntry, firstLevel, encode, familyByByte, keysE, keysF, lookup_entry]

/-- A well-formed instruction decodes from its own word, unless its pattern is dropped (rules R76, R86). -/
theorem decode_encode {cfg : Config} {i : Instr} (h : i.wf = true)
    (kept : cfg.unimplAsDecodeFault = false ∨ i.executed = true) : decode cfg (encode i) = .instr i := by
  have kept' : (i.executed || !cfg.unimplAsDecodeFault) = true := by simpa [or_comm] using kept
  simp only [decode, DecoderStrategy.run_eq, tableEntry_encode h, Option.filter_some, if_pos kept']

/-- Settles O7: the two bytes are those of the word, high byte first, and the word decodes. -/
theorem encodedBytesDecodeAndConsumeTwo : Obligations.EncodedBytesDecodeAndConsumeTwo := by
  intro cfg i rest h kept
  refine ⟨?_, _, _, rfl, ?_⟩
  · simp only [encodeBytes, List.cons_append, List.nil_append, decodeBytes, assemble_bytes, decode_encode h kept]
  · rw [← toNat_assemble, assemble_bytes]

end Sys2Proof
end

section
/-! PROOF. The obligations on memory (rules R53, R54, R63, R165 to R167, R236): checked accesses, the canonical form, and
what the stores and the load of a whole access do. -/

namespace Sys2Proof.Machine

/-! ### One byte (rules R53, R54) -/

theorem memRead_fault {a : Nat} {s : State} (h : 4095 < a) : memRead a s = .error (.outOfBounds .data a s.pc) :=
  if_pos h

theorem memWrite_fault {a : Nat} {v : Byte} {s : State} (h : 4095 < a) :
    memWrite a v s = .error (.outOfBounds .data a s.pc) :=
  if_pos h

/-- Settles O40. -/
theorem memReadAndMemWriteAreBoundsChecked : Obligations.MemReadAndMemWriteAreBoundsChecked := by
  intro a v s hwf
  refine ⟨fun ha => ⟨memRead_ok ha, _, memWrite_ok ha, rfl, ?_, fun b hb => ?_⟩,
    fun ha => ⟨memRead_fault ha, memWrite_fault ha⟩⟩
  · rw [memRead_ok ha, Memory.read_write hwf, if_pos rfl]
  · simp only [memRead, Memory.read_write_other hb]

/-! ### The canonical form (log entry 4) -/

theorem Memory.read_head (k : Nat) (b : Byte) (rest : Memory) : Memory.read ((k, b) :: rest) k = b := if_pos rfl

/-- What one canonical memory lists first, another that reads alike does not list later. -/
theorem Memory.head_le_of_read_eq {j k : Nat} {b c : Byte} {rest rest' : Memory} (hb : b ≠ Memory.unlisted)
    (hn : Memory.wfFrom 0 ((j, c) :: rest') = true)
    (alike : Memory.read ((k, b) :: rest) k = Memory.read ((j, c) :: rest') k) : j ≤ k := by
  by_contra below
  have hj := (Memory.wfFrom_cons.mp hn).2
  have hlow : Memory.wfFrom j ((j, c) :: rest') = true := Memory.wfFrom_cons.mpr ⟨le_rfl, hj⟩
  rw [Memory.read_head, Memory.read_below hlow (by omega)] at alike
  exact hb alike

/-- Canonical memories that read alike everywhere are equal. -/
theorem Memory.eq_of_read_eq {m n : Memory} (hm : m.wfFrom 0 = true) (hn : n.wfFrom 0 = true)
    (alike : ∀ a, m.read a = n.read a) : m = n := by
  induction m generalizing n with
  | nil =>
    cases n with
    | nil => rfl
    | cons cell rest =>
      obtain ⟨-, -, hc, -⟩ := Memory.wfFrom_cons.mp hn
      exact absurd ((alike cell.1).trans (Memory.read_head ..)).symm hc
  | cons cell rest ih =>
    obtain ⟨k, b⟩ := cell
    obtain ⟨-, -, hb, hrest⟩ := Memory.wfFrom_cons.mp hm
    cases n with
    | nil => exact absurd ((Memory.read_head ..).symm.trans (alike k)) hb
    | cons cell' rest' =>
      obtain ⟨j, c⟩ := cell'
      obtain ⟨-, -, hc, hrest'⟩ := Memory.wfFrom_cons.mp hn
      obtain rfl : j = k :=
        le_antisymm (Memory.head_le_of_read_eq hb hn (alike k)) (Memory.head_le_of_read_eq hc hm (alike j).symm)
      obtain rfl : b = c := by simpa only [Memory.read_head] using alike j
      have tails : ∀ a, Memory.read rest a = Memory.read rest' a := by
        intro a
        by_cases ha : a = j
        · rw [Memory.read_below hrest (by omega), Memory.read_below hrest' (by omega)]
        · simpa only [Memory.read, if_neg ha] using alike a
      rw [ih (Memory.wfFrom_mono (Nat.zero_le _) hrest) (Memory.wfFrom_mono (Nat.zero_le _) hrest') tails]

/-- Settles O41: above 4095 a canonical memory lists nothing. -/
theorem canonicalMemoriesThatReadAlikeAreEqual : Obligations.CanonicalMemoriesThatReadAlikeAreEqual := by
  intro m n hm hn alike
  refine Memory.eq_of_read_eq hm hn fun a => ?_
  by_cases ha : a ≤ 4095
  · exact alike a ha
  · rw [Memory.read_above hm (by omega), Memory.read_above hn (by omega)]

/-! ### Whole accesses from I (rules R55, R58, R59) -/

theorem Memory.read_writeBytes_at {m : Memory} {a k : Nat} {bytes : List Byte} (h : m.wf = true)
    (ha : a + bytes.length ≤ 4096) (hk : k < bytes.length) : (m.writeBytes a bytes).read (a + k) = bytes[k] := by
  rw [Memory.read_writeBytes h ha, dif_pos (by omega)]
  simp

theorem effectiveAddress_add (s : State) (k : Nat) : effectiveAddress s k = effectiveAddress s 0 + k := rfl

/-- A store instruction whose bytes fit changes memory alone. -/
theorem settle_store_fits {s : State} {bytes : List Byte} (fits : effectiveAddress s 0 + bytes.length ≤ 4096) :
    settle s (storeBytes (effectiveAddress s 0) bytes s) =
      .next { s with mem := s.mem.writeBytes (effectiveAddress s 0) bytes } := by
  rw [storeBytes_ok fits, settle_ok]

/-- A store instruction whose bytes do not fit takes its fault and stores nothing. -/
theorem settle_store_fault {s : State} {bytes : List Byte} (hn : 0 < bytes.length)
    (out : 4096 < effectiveAddress s 0 + bytes.length) :
    settle s (storeBytes (effectiveAddress s 0) bytes s) =
      .next { s with fault := some (.outOfBounds .data (max s.I.toNat 4096) s.pc) } := by
  rw [storeBytes_fault hn out, settle_error]
  rfl

/-- Settles O36: the store of three digits. -/
theorem storeBcdStoresThreeDigitsOrFaults : Obligations.StoreBcdStoresThreeDigitsOrFaults := by
  intro x s
  have count := bcdDigits_length (s.reg x)
  have base := effectiveAddress_add s 2
  refine ⟨fun hwf fits => ?_, fun out => settle_store_fault (by omega) (by omega)⟩
  have fits' : effectiveAddress s 0 + (bcdDigits (s.reg x)).length ≤ 4096 := by omega
  have stored (k : Nat) (hk : k < 3) :
      ((s.mem.writeBytes (effectiveAddress s 0) (bcdDigits (s.reg x))).read (effectiveAddress s k)).toNat =
        (bcdDigits (s.reg x))[k].toNat :=
    congrArg _ (Memory.read_writeBytes_at hwf fits' hk)
  have digit (n : Nat) (hn : n ≤ 255) : (BitVec.ofNat 8 n).toNat = n := by
    rw [BitVec.toNat_ofNat]
    omega
  have small := (s.reg x).isLt
  refine ⟨_, settle_store_fits fits', rfl, ?_, ?_, ?_, fun a ha => Memory.read_writeBytes_outside (by omega)⟩
  · exact (stored 0 (by decide)).trans (digit _ (by omega))
  · exact (stored 1 (by decide)).trans (digit _ (by omega))
  · exact (stored 2 (by decide)).trans (digit _ (by omega))

/-- Settles O37: the store of x + 1 registers. -/
theorem storeRegistersStoresVZeroToXOrFaults : Obligations.StoreRegistersStoresVZeroToXOrFaults := by
  intro x s
  have count := uptoRegs_length s x
  have base := effectiveAddress_add s x.toNat
  refine ⟨fun hwf fits => ?_, fun out => settle_store_fault (by omega) (by omega)⟩
  have fits' : effectiveAddress s 0 + (uptoRegs s x).length ≤ 4096 := by omega
  refine ⟨_, settle_store_fits fits', rfl, fun k hk => ?_, fun a ha => Memory.read_writeBytes_outside (by omega)⟩
  refine (Memory.read_writeBytes_at hwf fits' (by omega)).trans ?_
  rw [uptoRegs_getElem, BitVec.ofNat_toNat, BitVec.setWidth_eq]

/-- Settles O38: the load of x + 1 registers. -/
theorem loadRegistersLoadsVZeroToXOrFaults : Obligations.LoadRegistersLoadsVZeroToXOrFaults := by
  intro x s
  have base := effectiveAddress_add s x.toNat
  have load : exec (.loadRegisters x) s =
      settle s ((loadBytes (effectiveAddress s 0) (x.toNat + 1) s).map fun bytes => setRegsFrom 0 bytes s) := rfl
  refine ⟨fun fits => ?_, fun out => ?_⟩
  · rw [load, loadBytes_ok (by omega)]
    refine ⟨_, rfl, setRegsFrom_eq .., fun k => ?_⟩
    have count := Memory.readBytes_length s.mem (effectiveAddress s 0) (x.toNat + 1)
    have := x.isLt
    rw [reg_setRegsFrom _ _ _ _ (by omega)]
    by_cases hk : k.toNat ≤ x.toNat
    · rw [dif_pos (by omega), if_pos hk, Memory.readBytes_getElem]
      rfl
    · rw [dif_neg (by omega), if_neg hk]
  · rw [load, loadBytes_fault (by omega) (by omega)]
    rfl

/-! ### A store into the instructions (rules R63, R236) -/

/-- After the step of a store, the next fetch reads memory with the stored bytes laid over it. -/
theorem fetch_after_store {cfg : Config} {s : State} {i : Instr} {bytes : List Byte} (hs : Running s)
    (hsup : s.suppress = false) (hwf : s.mem.wf = true) (hpc : s.pc.toNat ≤ 4092) (hf : fetch s = .ok (encode i))
    (hd : decode cfg (encode i) = .instr i)
    (hstore : exec i s = settle s (storeBytes (effectiveAddress s 0) bytes s))
    (fits : effectiveAddress s 0 + bytes.length ≤ 4096) :
    ∃ t, stepWith cfg s = .next t ∧ Running t ∧
      fetch t = .ok (assemble (overlaid (effectiveAddress s 0) bytes s.mem (s.pc.toNat + 2))
        (overlaid (effectiveAddress s 0) bytes s.mem (s.pc.toNat + 3))) := by
  rw [settle_store_fits fits] at hstore
  refine ⟨_, (stepWith_encode hs hf hd).trans (execute_running hstore hs), hs, ?_⟩
  have next : (s.pc + pcStep).toNat = s.pc.toNat + 2 := by
    rw [pcStep]
    bv_omega
  rw [fetch_ok (by simp [hsup, next]; omega), wordAtPc]
  simp only [advance_pc, advance_mem, hsup, next, Bool.false_eq_true, if_false, read_writeBytes_overlaid hwf fits]

/-- Settles O42: both stores are executed variants, so their words decode under every configuration. -/
theorem storeIntoCodeIsSeenByTheNextFetch : Obligations.StoreIntoCodeIsSeenByTheNextFetch := by
  intro cfg s x hs hsup hwf hpc
  refine ⟨fun hf fits => ?_, fun hf fits => ?_⟩
  · have count := uptoRegs_length s x
    have base := effectiveAddress_add s x.toNat
    exact fetch_after_store hs hsup hwf hpc hf (decode_encode rfl (.inr rfl)) rfl (by omega)
  · exact fetch_after_store hs hsup hwf hpc hf (decode_encode rfl (.inr rfl)) rfl (Nat.succ_le_succ fits)

end Sys2Proof.Machine
end

section
/-! PROOF. The obligations on load and on what a call of the host may change (rules R65 to R67, R69, R206, R216): what
each admitted call does, said once, and from it the invariant of a machine in the host's hands. -/

namespace Sys2Proof.Machine

/-! ### load (rules R65 to R67) -/

/-- A program that fits goes into memory from 512 on. -/
theorem load_fits {bytes : List Byte} {s : State} (h : bytes.length ≤ 3584) :
    load (some bytes) s = .ok { s with mem := s.mem.writeBytes 512 bytes } :=
  if_neg (Nat.not_lt.mpr h)

theorem load_capacity {bytes : List Byte} {s : State} (h : 3584 < bytes.length) :
    load (some bytes) s = .error .capacity :=
  if_pos h

/-- Everything a load that succeeds does. -/
theorem load_ok {source : Option (List Byte)} {s t : State} (h : load source s = .ok t) :
    ∃ bytes, bytes.length ≤ 3584 ∧ t = { s with mem := s.mem.writeBytes 512 bytes } := by
  cases source with
  | none => cases h
  | some bytes =>
    by_cases hlen : bytes.length ≤ 3584
    · rw [load_fits hlen] at h
      exact ⟨bytes, hlen, (Except.ok.inj h).symm⟩
    · rw [load_capacity (Nat.lt_of_not_le hlen)] at h
      cases h

theorem load_keeps_inv {source : Option (List Byte)} {s t : State} (hi : Inv s) (h : load source s = .ok t) : Inv t := by
  obtain ⟨bytes, hlen, rfl⟩ := load_ok h
  exact { hi with mem_wf := Memory.writeBytes_wf hi.mem_wf (by omega) }

/-- A machine that differs from a loaded one only in memory from 512 on and in the timers is a loaded one. -/
theorem AsLoaded.congr {s t : State} (h : AsLoaded s)
    (same : t = { s with mem := t.mem, delay := t.delay, sound := t.sound })
    (reserved : ∀ a, a < 512 → t.mem.read a = s.mem.read a) : AsLoaded t := by
  obtain ⟨hreset, hzero⟩ := h
  have hdraws : t.draws = s.draws := by rw [same]
  refine ⟨same.trans ?_, fun a ha => (reserved a ha).trans (hzero a ha)⟩
  rw [hdraws, hreset]

/-- A load leaves the reserved area 0..511 zero (rule R66). -/
theorem load_keeps_asLoaded {source : Option (List Byte)} {s t : State} (hl : AsLoaded s) (h : load source s = .ok t) :
    AsLoaded t := by
  obtain ⟨bytes, -, rfl⟩ := load_ok h
  exact hl.congr rfl fun a ha => Memory.read_writeBytes_below ha

theorem peek_eq {a : Nat} (ha : a ≤ 4095) (s : State) : peek a s = some (s.mem.read a) := if_pos ha

/-- peek sees memory alone. -/
theorem peek_congr {a : Nat} {s t : State} (h : t.mem.read a = s.mem.read a) : peek a t = peek a s := by
  rw [peek, peek, h]

/-- Settles O54: a load that fits is a sequence of writes from 512 on. -/
theorem loadPlacesTheBytesOrFails : Obligations.LoadPlacesTheBytesOrFails := by
  intro bytes s hwf
  refine ⟨fun hlen => ⟨_, load_fits hlen, rfl, fun k hk => ?_, fun a ha => ?_⟩, load_capacity, rfl⟩
  · rw [peek_eq (by omega), Memory.read_writeBytes_at hwf (by omega)]
  · exact peek_congr (Memory.read_writeBytes_outside ha)

/-! ### What an admitted call does (rule R216) -/

/-- The admitted call `c` can lead from `w` to the session given, with the reply given. -/
inductive CallEffect (cfg : Config) (w : Session) : HostCall → Session → Reply → Prop where
  | loaded (source : Option (List Byte)) (t : State) (before : w.started = false)
      (placed : load source w.state = .ok t) : CallEffect cfg w (.load source) { w with state := t } .loaded
  | loadFailed (source : Option (List Byte)) (e : LoadError) (before : w.started = false)
      (failed : load source w.state = .error e) : CallEffect cfg w (.load source) w (.loadError e)
  | step : CallEffect cfg w .step { state := (stepCall cfg w.state).1, started := true }
      (.stepped (stepCall cfg w.state).2)
  | run (between : List (List TimerAction)) (t : State) (F : FaultRecord)
      (allowed : runAllows cfg.timerEnv between = true) (ran : runFor cfg between w.state = some (t, F)) :
      CallEffect cfg w (.run between) { state := t, started := true } (.ranInto F)
  | reset : CallEffect cfg w .reset { state := hostReset w.state, started := false } .nothing
  | timer (a : TimerAction) (allowed : timerAllows cfg.timerEnv a = true) :
      CallEffect cfg w (.timer a) { w with state := a.apply w.state } .nothing
  | snapshot : CallEffect cfg w .snapshot w (.snapshot (Machine.snapshot w.state))
  | debugDump : CallEffect cfg w .debugDump w (.debugDump (Machine.debugDump w.state))
  | peek (a : Nat) (b : Byte) (shown : Machine.peek a w.state = some b) : CallEffect cfg w (.peek a) w (.byte b)

/-- Before the first step a load is admitted: it places its bytes, or fails and changes nothing. -/
theorem call_load_before {cfg : Config} {w : Session} (before : w.started = false) (source : Option (List Byte)) :
    ∃ w' r, w.call cfg (.load source) = some (w', r) ∧ CallEffect cfg w (.load source) w' r := by
  cases hl : load source w.state with
  | ok t => exact ⟨_, _, by simp [Session.call, Session.load, before, hl], .loaded source t before hl⟩
  | error e => exact ⟨_, _, by simp [Session.call, Session.load, before, hl], .loadFailed source e before hl⟩

theorem call_load_started {cfg : Config} {w : Session} (started : w.started = true) (source : Option (List Byte)) :
    w.call cfg (.load source) = none :=
  if_pos started

/-- Every admitted call has an effect of the list. -/
theorem call_effect {cfg : Config} {w w' : Session} {c : HostCall} {r : Reply} (h : w.call cfg c = some (w', r)) :
    CallEffect cfg w c w' r := by
  cases c with
  | load source =>
    cases hst : w.started with
    | true =>
      rw [call_load_started hst] at h
      cases h
    | false =>
      obtain ⟨_, _, admitted, e⟩ := call_load_before (cfg := cfg) hst source
      rw [admitted] at h
      cases h
      exact e
  | step => cases h; exact .step
  | run between =>
    by_cases allowed : runAllows cfg.timerEnv between = true
    · rw [Session.call, Session.run, if_pos allowed] at h
      obtain ⟨⟨t, F⟩, ran, e⟩ := Option.map_eq_some_iff.mp h
      cases e
      exact .run between t F allowed ran
    · rw [Session.call, Session.run, if_neg allowed] at h
      cases h
  | reset => cases h; exact .reset
  | timer a =>
    by_cases allowed : timerAllows cfg.timerEnv a = true
    · rw [Session.call, if_pos allowed] at h
      cases h
      exact .timer a allowed
    · rw [Session.call, if_neg allowed] at h
      cases h
  | snapshot => cases h; exact .snapshot
  | debugDump => cases h; exact .debugDump
  | peek a =>
    obtain ⟨b, shown, e⟩ := Option.map_eq_some_iff.mp h
    cases e
    exact .peek a b shown

/-! ### The invariant of a machine in the host's hands (rules R65, R66, R238) -/

/-- The invariant does not speak of the timers. -/
theorem Inv.timerAction {s : State} (h : Inv s) (a : TimerAction) : Inv (a.apply s) := by
  rw [timerAction_sameButTimers a s]
  exact { h with }

theorem AsLoaded.timerAction {s : State} (h : AsLoaded s) (a : TimerAction) : AsLoaded (a.apply s) := by
  cases a <;> exact h.congr rfl fun _ _ => rfl

theorem stepCall_keeps_inv {cfg : Config} {s : State} (h : Inv s) : Inv (stepCall cfg s).1 := by
  obtain e | e := stepCall_state cfg s
  · rwa [e]
  · exact stepKeepsTheInvariant cfg s _ h e

/-- Settles O45, along what a call can do. -/
theorem everyHostCallKeepsTheSessionInvariant : Obligations.EveryHostCallKeepsTheSessionInvariant := by
  intro cfg w w' c r ⟨hi, hl⟩ h
  cases call_effect h with
  | loaded source t before placed =>
    exact ⟨load_keeps_inv hi placed, fun _ => load_keeps_asLoaded (hl before) placed⟩
  | step => exact ⟨stepCall_keeps_inv hi, fun started => nomatch started⟩
  | run between t F _ ran =>
    have hinv := runFor_keeps (stepKeepsTheInvariant cfg) between (fun _ _ a _ _ hs => hs.timerAction a) hi ran
    exact ⟨hinv, fun started => nomatch started⟩
  | reset => exact ⟨{ reset_inv with }, fun _ => ⟨rfl, fun a _ => reset_mem_read a⟩⟩
  | timer a => exact ⟨hi.timerAction a, fun before => (hl before).timerAction a⟩
  | loadFailed | snapshot | debugDump | peek => exact ⟨hi, hl⟩

/-- Settles O55: before the first step a load has one of two effects, after it none. -/
theorem loadIsAdmittedOnlyBeforeTheFirstStep : Obligations.LoadIsAdmittedOnlyBeforeTheFirstStep := by
  intro cfg w source
  refine ⟨fun started => call_load_started started source, fun before => ?_, ⟨_, _, rfl, rfl⟩⟩
  obtain ⟨w', r, admitted, e⟩ := call_load_before (cfg := cfg) before source
  refine ⟨w', r, admitted, ?_⟩
  cases e with
  | loaded _ t _ placed => exact ⟨before, .inl ⟨rfl, placed⟩⟩
  | loadFailed _ e _ failed => exact ⟨before, .inr ⟨e, rfl, failed, rfl⟩⟩

/-- Settles O56, along what a call can do. -/
theorem hostCallsBetweenStepsWriteOnlyMemoryOrTimers : Obligations.HostCallsBetweenStepsWriteOnlyMemoryOrTimers := by
  intro cfg w w' c r h notStep notReset notRun
  cases call_effect h with
  | loaded source t _ placed =>
    obtain ⟨bytes, -, rfl⟩ := load_ok placed
    exact ⟨rfl, fun _ => rfl, fun ⟨_, e⟩ => (nomatch e), fun notLoad _ => absurd rfl (notLoad source)⟩
  | timer a =>
    exact ⟨rfl, fun ⟨_, e⟩ => (nomatch e), fun _ => timerAction_sameButTimers a w.state,
      fun _ notTimer => absurd rfl (notTimer a)⟩
  | step => exact absurd rfl notStep
  | reset => exact absurd rfl notReset
  | run between => exact absurd rfl (notRun between)
  | loadFailed | snapshot | debugDump | peek => exact ⟨rfl, fun _ => rfl, fun _ => rfl, fun _ _ => rfl⟩

end Sys2Proof.Machine
end

section
/-! PROOF. The obligations on the decoder and the encoder (rules R74 to R86, R91): each is a fact about the tables'
entry, which is what either strategy answers unless it is dropped (`DecoderStrategy.run_eq`). -/

namespace Sys2Proof

open Machine (UnrecognizedWord)

/-! ### The strategies and the dropped patterns (rules R81, R82, R86) -/

/-- Settles O2: the tables hold a well-formed instruction for its own word. -/
theorem encodedInstructionDecodesToItself : Obligations.EncodedInstructionDecodesToItself :=
  fun _ _ wf kept => decode_encode wf kept

/-- Settles O4: each decoder is the filtered table, family by family. -/
theorem decoderStrategiesAgreeOnEveryWord : Obligations.DecoderStrategiesAgreeOnEveryWord :=
  decodeMask_eq_decodeTable

/-- Dropping nothing leaves the tables' entry. -/
theorem DecoderStrategy.run_false (strategy : DecoderStrategy) (op : Opcode) :
    strategy.run false op = tableEntry op := by
  rw [DecoderStrategy.run_eq]
  cases tableEntry op <;> simp

/-- Dropping the unimplemented patterns is filtering the outcome (rule R86). -/
theorem DecoderStrategy.run_true (strategy : DecoderStrategy) (op : Opcode) :
    strategy.run true op = (strategy.run false op).filter Instr.executed := by
  simp [DecoderStrategy.run_eq]

/-- Settles O6: what a filter answers. -/
theorem droppingUnimplementedPatternsDropsOnlyThem : Obligations.DroppingUnimplementedPatternsDropsOnlyThem := by
  intro strategy op
  rw [DecoderStrategy.run_true]
  refine ⟨fun i => Option.filter_eq_some_iff, ?_⟩
  cases strategy.run false op with
  | none => simp
  | some i => simp

/-- The decoder's outcome does not depend on the strategy. -/
theorem decode_strategy (cfg : Config) (strategy strategy' : DecoderStrategy) :
    decode { cfg with decoderStrategy := strategy } = decode { cfg with decoderStrategy := strategy' } := by
  funext op
  simp only [decode, DecoderStrategy.run_eq]

/-- Settles O8: a step reads its configuration in the decoder alone. -/
theorem decoderStrategyIsUnobservable : Obligations.DecoderStrategyIsUnobservable := by
  intro cfg s
  simp only [Machine.stepCall, Machine.stepWith, Machine.cycle, Machine.decodeExecute, decode_strategy cfg .mask .table]

/-! ### Encoding what was decoded (rules R75, R76, R78) -/

/-- Family 0 reads a system-call from the words other than 00E0 and 00EE alone (rule R78). -/
theorem encode_of_family0 {op : Opcode} {i : Instr} (hc : highNibble op = 0) (h : family0 op = some i) :
    i.wf = true ∧ encode i = op := by
  have hXK := encodeXK_fields op
  have hA := encodeA_fields op
  rw [hc] at hXK hA
  rw [family0] at h
  split_ifs at h with h0 he <;> cases h
  · rw [h0.1, h0.2] at hXK
    exact ⟨rfl, hXK⟩
  · rw [he.1, he.2] at hXK
    exact ⟨rfl, hXK⟩
  · have ne0 : nnnField op ≠ 0x0E0 := by
      intro e
      rw [← hA, e] at h0
      exact h0 ⟨rfl, rfl⟩
    have nee : nnnField op ≠ 0x0EE := by
      intro e
      rw [← hA, e] at he
      exact he ⟨rfl, rfl⟩
    exact ⟨by simpa [Instr.wf] using ⟨ne0, nee⟩, hA⟩

/-- What a keyed table answers stands in it under that key. -/
theorem mem_of_lookup {α β : Type} [DecidableEq α] {keys : List (α × β)} {a : α} {b : β}
    (h : keys.lookup a = some b) : (a, b) ∈ keys := by
  obtain ⟨_, _, rfl, -⟩ := List.lookup_eq_some_iff.mp h
  simp

/-- A family keyed on the lowest byte whose entries have the words of format X. -/
theorem encode_of_familyByByte {c : Nibble} {keys : List (Byte × (RegIdx → Instr))} {op : Opcode} {i : Instr}
    (entries : ∀ entry ∈ keys, ∀ x, (entry.2 x).wf = true ∧ encode (entry.2 x) = encodeXK c x entry.1)
    (hc : highNibble op = c) (h : familyByByte keys op = some i) : i.wf = true ∧ encode i = op := by
  obtain ⟨build, found, rfl⟩ := Option.map_eq_some_iff.mp h
  obtain ⟨wf, word⟩ := entries _ (mem_of_lookup found) (xField op)
  refine ⟨wf, word.trans ?_⟩
  rw [← hc, encodeXK_fields]

/-- A family keyed on the lowest nibble whose entries have the words of format XY. -/
theorem encode_of_familyByNibble {c : Nibble} {keys : List (Nibble × (RegIdx → RegIdx → Instr))} {op : Opcode}
    {i : Instr}
    (entries : ∀ entry ∈ keys, ∀ x y, (entry.2 x y).wf = true ∧ encode (entry.2 x y) = encodeXYN c x y entry.1)
    (hc : highNibble op = c) (h : familyByNibble keys op = some i) : i.wf = true ∧ encode i = op := by
  obtain ⟨build, found, rfl⟩ := Option.map_eq_some_iff.mp h
  obtain ⟨wf, word⟩ := entries _ (mem_of_lookup found) (xField op) (yField op)
  refine ⟨wf, word.trans ?_⟩
  rw [← hc, encodeXYN_fields]

/-- The tables hold, for a word, a well-formed instruction of that word, family by family. -/
theorem encode_of_tableEntry {op : Opcode} {i : Instr} (h : tableEntry op = some i) : i.wf = true ∧ encode i = op := by
  have hA := encodeA_fields op
  have hXK := encodeXK_fields op
  have hXYN := encodeXYN_fields op
  rw [tableEntry] at h
  obtain hc | hc | hc | hc | hc | hc | hc | hc | hc | hc | hc | hc | hc | hc | hc | hc := nibble_cases (highNibble op)
  all_goals rw [hc] at h hA hXK hXYN
  · exact encode_of_family0 hc h
  · cases h; exact ⟨rfl, hA⟩
  · cases h; exact ⟨rfl, hA⟩
  · cases h; exact ⟨rfl, hXK⟩
  · cases h; exact ⟨rfl, hXK⟩
  · exact encode_of_familyByNibble (by simp [keys5, Instr.wf, encode]) hc h
  · cases h; exact ⟨rfl, hXK⟩
  · cases h; exact ⟨rfl, hXK⟩
  · exact encode_of_familyByNibble (by simp [keys8, Instr.wf, encode]) hc h
  · exact encode_of_familyByNibble (by simp [keys9, Instr.wf, encode]) hc h
  · cases h; exact ⟨rfl, hA⟩
  · cases h; exact ⟨rfl, hA⟩
  · cases h; exact ⟨rfl, hXK⟩
  · cases h; exact ⟨rfl, hXYN⟩
  · exact encode_of_familyByByte (by simp [keysE, Instr.wf, encode]) hc h
  · exact encode_of_familyByByte (by simp [keysF, Instr.wf, encode]) hc h

/-- A decoded instruction is the tables' entry. -/
theorem tableEntry_of_decode {cfg : Config} {op : Opcode} {i : Instr} (h : decode cfg op = .instr i) :
    tableEntry op = some i := by
  rw [decode, DecoderStrategy.run_eq] at h
  split at h
  · rename_i found
    cases h
    exact (Option.filter_eq_some_iff.mp found).1
  · cases h

/-- Settles O3: a decoded instruction is the tables' entry, and each entry has the word it stands for. -/
theorem decodedWordIsTheEncodingOfItsInstruction : Obligations.DecodedWordIsTheEncodingOfItsInstruction :=
  fun _ _ _ h => encode_of_tableEntry (tableEntry_of_decode h)

/-! ### The unrecognized words (rule R83) -/

theorem familyByByte_eq_none {keys : List (Byte × (RegIdx → Instr))} {op : Opcode} :
    familyByByte keys op = none ↔ ∀ entry ∈ keys, kkField op ≠ entry.1 := by
  simp [familyByByte]

theorem familyByNibble_eq_none {keys : List (Nibble × (RegIdx → RegIdx → Instr))} {op : Opcode} :
    familyByNibble keys op = none ↔ ∀ entry ∈ keys, nField op ≠ entry.1 := by
  simp [familyByNibble]

/-- Families 5 and 9 list one lowest nibble. -/
theorem familyByNibble_singleton_eq_none (key : Nibble) (build : RegIdx → RegIdx → Instr) (op : Opcode) :
    familyByNibble [(key, build)] op = none ↔ nField op ≠ key := by
  rw [familyByNibble_eq_none, List.forall_mem_singleton]

/-- The lowest nibbles that family 8 does not list. -/
theorem unlisted_keys8 (n : Nibble) : (∀ entry ∈ keys8, n ≠ entry.1) ↔
    n = 0x8 ∨ n = 0x9 ∨ n = 0xA ∨ n = 0xB ∨ n = 0xC ∨ n = 0xD ∨ n = 0xF := by
  revert n
  decide

/-- The words of family 8 that rule R83 lists, by the nibbles they have. -/
theorem family8_eq_none (op : Opcode) : familyByNibble keys8 op = none ↔
    nField op = 0x8 ∨ nField op = 0x9 ∨ nField op = 0xA ∨ nField op = 0xB ∨ nField op = 0xC ∨ nField op = 0xD ∨
      nField op = 0xF :=
  familyByNibble_eq_none.trans (unlisted_keys8 (nField op))

/-- The tables have no entry for the words of rule R83 and for no others, family by family. -/
theorem tableEntry_eq_none_iff (op : Opcode) : tableEntry op = none ↔ UnrecognizedWord op := by
  rw [tableEntry, UnrecognizedWord]
  obtain hc | hc | hc | hc | hc | hc | hc | hc | hc | hc | hc | hc | hc | hc | hc | hc := nibble_cases (highNibble op)
  case inl => simp [hc, firstLevel, family0_eq]
  all_goals
    simp [hc, firstLevel, family8_eq_none, familyByNibble_singleton_eq_none, keys5, keys9, familyByByte_eq_none, keysE,
      keysF]

/-- Settles O5: a word is unrecognized when the tables have no entry for it. -/
theorem unrecognizedWordsAreThoseOfTheTable : Obligations.UnrecognizedWordsAreThoseOfTheTable := by
  intro strategy op
  rw [DecoderStrategy.run_false, tableEntry_eq_none_iff]

theorem decode_standard_unrecognized {op : Opcode} (h : UnrecognizedWord op) :
    decode Config.standard op = .unrecognized op := by
  simp only [decode, Config.standard, DecoderStrategy.run_false, (tableEntry_eq_none_iff op).mpr h]

/-- Settles O1: six words are those of their instructions; 5121 is in family 5 with a lowest nibble other than 0. -/
theorem sampleWordsDecodeAsTheOpcodeMapSays : Obligations.SampleWordsDecodeAsTheOpcodeMapSays :=
  have sample (i : Instr) (wf : i.wf = true) : decode Config.standard (encode i) = .instr i :=
    decode_encode wf (.inl rfl)
  ⟨sample .clearScreen rfl, sample (.systemCall 0x1E0) rfl, sample (.call 0x222) rfl, sample (.addRegister 1 2) rfl,
    sample (.storeRegisters 2) rfl, sample (.draw 0 1 5) rfl,
    decode_standard_unrecognized (.inl ⟨rfl, by decide⟩)⟩

end Sys2Proof
end

section
/-! PROOF. The obligations on the fetch-decode-execute cycle (rules R100 to R111, R114, R148, R180): every instruction
and every step of a running machine answers a next state, a step that raises a fault leaves everything else as it was,
and a run is the steps up to the first fault. -/

namespace Sys2Proof

/-! ### The words of the unimplemented variants (rules R85, R86, R180) -/

/-- The one variant without an encoding for some operand is executed. -/
theorem Instr.wf_of_not_executed {i : Instr} (hi : i.executed = false) : i.wf = true := by
  cases i with
  | systemCall nnn => cases hi
  | _ => rfl

/-- UNIMPL_AS_DECODE_FAULT makes the word of an unimplemented variant unrecognized. -/
theorem decode_encode_dropped {cfg : Config} {i : Instr} (hi : i.executed = false)
    (drop : cfg.unimplAsDecodeFault = true) : decode cfg (encode i) = .unrecognized (encode i) := by
  have dropped : ¬(i.executed || !cfg.unimplAsDecodeFault) = true := by simp [hi, drop]
  simp only [decode, DecoderStrategy.run_eq, tableEntry_encode (Instr.wf_of_not_executed hi), Option.filter_some,
    if_neg dropped]

namespace Machine

/-- An unimplemented variant takes its fault and does nothing else (rules R104, R180). -/
theorem exec_unimplemented {i : Instr} (hi : i.executed = false) (s : State) :
    exec i s = .next (raiseFault (.unimplementedFault (encode i) s.pc) s) := by
  cases i with
  | subtractRegister | shiftRight | subtractReverse | shiftLeft | skipIfRegistersNotEqual | jumpOffset | draw
  | skipIfKey | skipIfNotKey | waitKey | loadFontAddress => rfl
  | _ => cases hi

/-- The fault with the opcode written as a number. -/
theorem exec_unimplemented_ofNat {i : Instr} (hi : i.executed = false) (s : State) {op : Nat}
    (hop : (encode i).toNat = op) :
    exec i s = .next { s with fault := some (.unimplementedFault (BitVec.ofNat 16 op) s.pc) } := by
  rw [exec_unimplemented hi, ← hop, BitVec.ofNat_toNat, BitVec.setWidth_eq]
  rfl

/-- Settles O39: the opcode recorded is the variant's word, which each format gives as a sum of its fields. -/
theorem unimplementedVariantsTakeTheirFault : Obligations.UnimplementedVariantsTakeTheirFault := by
  intro x y n nnn s
  have xy (c low : Nibble) : (encodeXYN c x y low).toNat =
      c.toNat * 4096 + low.toNat + x.toNat * 256 + y.toNat * 16 := by
    rw [toNat_encodeXYN]
    omega
  have xk (c : Nibble) (kk : Byte) : (encodeXK c x kk).toNat = c.toNat * 4096 + kk.toNat + x.toNat * 256 := by
    rw [toNat_encodeXK]
    omega
  exact ⟨exec_unimplemented_ofNat rfl s (xy 8 5), exec_unimplemented_ofNat rfl s (xy 8 6),
    exec_unimplemented_ofNat rfl s (xy 8 7), exec_unimplemented_ofNat rfl s (xy 8 0xE),
    exec_unimplemented_ofNat rfl s (xy 9 0), exec_unimplemented_ofNat rfl s (toNat_encodeA 0xB nnn),
    exec_unimplemented_ofNat rfl s (toNat_encodeXYN 0xD x y n), exec_unimplemented_ofNat rfl s (xk 0xE 0x9E),
    exec_unimplemented_ofNat rfl s (xk 0xE 0xA1), exec_unimplemented_ofNat rfl s (xk 0xF 0x0A),
    exec_unimplemented_ofNat rfl s (xk 0xF 0x29)⟩

/-- Settles O30: both operands are read before the sum and the carry are written. -/
theorem addRegisterWritesSumThenCarry : Obligations.AddRegisterWritesSumThenCarry := by
  intro x y s
  refine ⟨_, rfl, writeSum8_eq x _ s, fun hx => ?_, ?_, fun k hkx hk15 => ?_⟩
  · rw [reg_writeSum8, if_neg hx, if_pos rfl, add8_result_toNat]
  · rw [reg_writeSum8, if_pos rfl, add8_carry, carryByte]
    simp only [decide_eq_true_eq]
  · rw [reg_writeSum8, if_neg hk15, if_neg hkx]

/-! ### The fetch (rules R101, R102) -/

/-- Settles O9. -/
theorem fetchedOpcodeIsTheTwoBytesAtPc : Obligations.FetchedOpcodeIsTheTwoBytesAtPc := by
  refine ⟨fun s hpc => ⟨wordAtPc s, fetch_ok hpc, rfl, ?_⟩, by decide⟩
  rw [wordAtPc, toNat_assemble, Nat.mul_comm]

/-! ### Every step completes (rules R100, R105, R112) -/

/-- The execute phase of every instruction answers a next state. -/
theorem exec_next (i : Instr) (s : State) : ∃ t, exec i s = .next t := by
  cases i with
  | ret | call | storeBCD | storeRegisters | loadRegisters => exact settle_next s _
  | _ => exact ⟨_, rfl⟩

theorem stepWith_next {s : State} (hs : Running s) (cfg : Config) : ∃ t, stepWith cfg s = .next t := by
  by_cases hpc : 4094 < s.pc.toNat
  · exact ⟨_, stepWith_fetch_fault hs hpc⟩
  · have hle : s.pc.toNat ≤ 4094 := by omega
    cases hd : decode cfg (wordAtPc s) with
    | unrecognized op => exact ⟨_, stepWith_unrecognized hs hle hd⟩
    | instr i =>
      obtain ⟨u, hu⟩ := exec_next i s
      exact ⟨finish u, by rw [stepWith_instr hs hle hd, execute, hu]⟩

/-- Settles O15. -/
theorem everyInstructionAndStepCompletes : Obligations.EveryInstructionAndStepCompletes :=
  ⟨exec_next, fun cfg _ => ⟨fun ⟨_, h⟩ => running_of_stepWith h, fun hs => stepWith_next hs cfg⟩⟩

/-- Settles O13: the word at pc decodes, so the step is its instruction's execute. -/
theorem stepRunsTheDecodedInstructionThenAdvances : Obligations.StepRunsTheDecodedInstructionThenAdvances := by
  refine ⟨fun cfg s i hs hpc hd => ?_, fun _ => rfl⟩
  have hstep : stepWith cfg s = execute i s := stepWith_instr hs hpc hd
  refine ⟨fun t ht hr => hstep.trans (execute_running ht hr), fun t ht hf => ?_⟩
  obtain ⟨F, hF⟩ := Option.ne_none_iff_exists'.mp hf
  exact hstep.trans (execute_faulted ht hF)

/-! ### What a step returns (rules R100, R108, R109) -/

theorem resultOf_running {t : State} (h : Running t) : resultOf t = .ok (decide (t.pc.toNat ≤ 4095)) := by
  simp only [resultOf, show t.fault = none from h]

theorem resultOf_faulted {t : State} {F : FaultRecord} (h : t.fault = some F) : resultOf t = .err F := by
  simp only [resultOf, h]

/-- A step that raises a fault returns it. -/
theorem stepCall_raiseFault {cfg : Config} {s : State} {F : FaultRecord}
    (h : stepWith cfg s = .next (raiseFault F s)) : stepCall cfg s = ({ s with fault := some F }, .err F) :=
  stepCall_next h

/-- Settles O14. -/
theorem faultedMachineOnlyReturnsItsFault : Obligations.FaultedMachineOnlyReturnsItsFault :=
  fun _ _ _ hF => ⟨stepWith_faulted hF, stepCall_faulted hF⟩

/-- Settles O17. -/
theorem stepResultReportsBoundsOrFault : Obligations.StepResultReportsBoundsOrFault := by
  intro cfg s hs
  obtain ⟨t, ht⟩ := stepWith_next hs cfg
  refine ⟨t, resultOf t, stepCall_next ht, ht, ?_⟩
  cases hf : t.fault with
  | none => exact .inl ⟨rfl, resultOf_running hf⟩
  | some F => exact .inr ⟨F, rfl, resultOf_faulted hf⟩

/-- Settles O10. -/
theorem fetchBoundIsPc4094 : Obligations.FetchBoundIsPc4094 := fun _ _ hs =>
  ⟨fun hpc => ⟨_, stepCall_raiseFault (stepWith_fetch_fault hs hpc), rfl⟩, fun hpc => ⟨_, fetch_ok hpc⟩⟩

/-- Settles O11. -/
theorem unrecognizedWordRaisesDecodeFault : Obligations.UnrecognizedWordRaisesDecodeFault := by
  intro cfg s op hs hf hd
  obtain ⟨hpc, rfl⟩ := fetch_eq hf
  exact stepCall_raiseFault (stepWith_unrecognized hs hpc hd)

/-- The step of an unimplemented variant's word raises the fault that the parameter names (rules R86, R104). -/
theorem stepWith_unimplemented {cfg : Config} {s : State} {i : Instr} (hs : Running s)
    (hf : fetch s = .ok (encode i)) (hi : i.executed = false) :
    stepWith cfg s = .next (raiseFault (if cfg.unimplAsDecodeFault then .decodeFault (encode i) s.pc
      else .unimplementedFault (encode i) s.pc) s) := by
  cases hc : cfg.unimplAsDecodeFault with
  | true =>
    obtain ⟨hpc, e⟩ := fetch_eq hf
    exact stepWith_unrecognized hs hpc (e ▸ decode_encode_dropped hi hc)
  | false =>
    rw [stepWith_encode hs hf (decode_encode (Instr.wf_of_not_executed hi) (.inl hc))]
    exact execute_faulted (exec_unimplemented hi s) rfl

/-- Settles O12: the step raises the fault, and a faulted machine only returns it. -/
theorem unimplementedWordFaultsForGood : Obligations.UnimplementedWordFaultsForGood :=
  fun _ _ _ hs hf hi => ⟨_, rfl, stepCall_raiseFault (stepWith_unimplemented hs hf hi), stepCall_faulted rfl⟩

/-! ### A step that raises a fault (rules R108, R201, R203) -/

/-- A settled check whose fault records the pc, and which else raises none, ends in no other fault. -/
theorem settle_fault_pc {s t : State} {r : Except FaultRecord State} {F : FaultRecord}
    (checked : (∃ G, r = .error G ∧ G.pc = s.pc) ∨ ∃ u, r = .ok u ∧ Running u) (h : settle s r = .next t)
    (hf : t.fault = some F) : F.pc = s.pc := by
  obtain ⟨G, rfl, hG⟩ | ⟨u, rfl, hu⟩ := checked <;> cases h
  · cases hf
    exact hG
  · cases hu.symm.trans hf

/-- A store raises a fault that records the pc, or none. -/
theorem storeBytes_fault_pc {a : Nat} {bytes : List Byte} {s : State} (hs : Running s) (hn : 0 < bytes.length) :
    (∃ G, storeBytes a bytes s = .error G ∧ G.pc = s.pc) ∨ ∃ u, storeBytes a bytes s = .ok u ∧ Running u := by
  obtain ⟨-, e⟩ | ⟨-, e⟩ := storeBytes_cases (a := a) s hn
  · exact .inr ⟨_, e, hs⟩
  · exact .inl ⟨_, e, rfl⟩

/-- The fault that an instruction raises records its pc (rule R201). -/
theorem exec_fault_pc {i : Instr} {s t : State} {F : FaultRecord} (hs : Running s) (h : exec i s = .next t)
    (hf : t.fault = some F) : F.pc = s.pc := by
  have can : CanFault i := (exec_effect h).fault_frame (by simp [hf, show s.fault = none from hs])
  obtain hi | rfl | ⟨nnn, rfl⟩ | ⟨x, rfl⟩ | ⟨x, rfl⟩ | ⟨x, rfl⟩ := can
  · rw [exec_unimplemented hi] at h
    cases h
    cases hf
    rfl
  · refine settle_fault_pc ?_ h hf
    by_cases hsp : s.sp = 0
    · exact .inl ⟨_, congrArg (Except.map _) (pop_fault hsp), rfl⟩
    · exact .inr ⟨_, congrArg (Except.map _) (pop_ok hsp), hs⟩
  · refine settle_fault_pc ?_ h hf
    by_cases hsp : s.sp = 15
    · exact .inl ⟨_, congrArg (Except.map _) (push_fault hsp), rfl⟩
    · exact .inr ⟨_, congrArg (Except.map _) (push_ok hsp), hs⟩
  · exact settle_fault_pc (storeBytes_fault_pc hs (bcdDigits_length (s.reg x) ▸ Nat.succ_pos 2)) h hf
  · exact settle_fault_pc (storeBytes_fault_pc hs (uptoRegs_length s x ▸ Nat.succ_pos _)) h hf
  · refine settle_fault_pc ?_ h hf
    obtain ⟨-, e⟩ | ⟨-, e⟩ := loadBytes_cases (a := effectiveAddress s 0) s (Nat.succ_pos x.toNat)
    · exact .inr ⟨_, congrArg (Except.map _) e, (congrArg State.fault (setRegsFrom_eq 0 _ s)).trans hs⟩
    · exact .inl ⟨_, congrArg (Except.map _) e, rfl⟩

/-- A step that raises a fault takes it on the state it began with, and the fault records the pc. -/
theorem stepWith_fault {cfg : Config} {s t : State} {F : FaultRecord} (hs : Running s)
    (h : stepWith cfg s = .next t) (hf : t.fault = some F) : t = raiseFault F s ∧ F.pc = s.pc := by
  obtain ⟨-, rfl⟩ | ⟨-, -, rfl⟩ | ⟨-, i, u, -, hu, rfl⟩ := stepWith_cases hs h
  · cases hf
    exact ⟨rfl, rfl⟩
  · cases hf
    exact ⟨rfl, rfl⟩
  · rw [finish_fault] at hf
    rw [finish_faulted hf]
    exact ⟨(exec_effect hu).eq_raiseFault hs hf, exec_fault_pc hs hu hf⟩

/-- Settles O16. -/
theorem faultingStepChangesNothingElse : Obligations.FaultingStepChangesNothingElse := by
  intro cfg s t F hs h hf
  obtain ⟨rfl, hpc⟩ := stepWith_fault hs h hf
  exact ⟨rfl, hpc, stepCall_next h⟩

/-! ### A step that raises no fault (rules R107, R114) -/

/-- Settles O57: of what a step can do, only an instruction leaves the machine running. -/
theorem observerIsToldOfEveryCompletedStep : Obligations.ObserverIsToldOfEveryCompletedStep := by
  intro cfg onFault s t hs h ht
  obtain ⟨-, rfl⟩ | ⟨-, -, rfl⟩ | ⟨hpc, i, u, hd, -, -⟩ := stepWith_cases hs h
  · cases ht
  · cases ht
  · refine ⟨wordAtPc s, i, fetch_ok hpc, hd, ?_⟩
    simp only [observe, fetch_ok hpc, stepCall_next h, resultOf_running ht, hd]

/-! ### Zeroed memory (rule R111) -/

/-- Memory holds zeros from pc to its end. -/
def ZerosFromPc (s : State) : Prop := ∀ a, s.pc.toNat ≤ a → a ≤ 4095 → s.mem.read a = 0

theorem wordAtPc_zeros {s : State} (hz : ZerosFromPc s) (hpc : s.pc.toNat ≤ 4094) : wordAtPc s = 0 := by
  rw [wordAtPc, hz _ (by omega) (by omega), hz _ (by omega) (by omega)]
  rfl

/-- The word 0 is system-call(0), whose step moves pc alone (rules R107, R122). -/
theorem stepWith_zeros (cfg : Config) {s : State} (hs : Running s) (hsup : s.suppress = false) (hz : ZerosFromPc s)
    (hpc : s.pc.toNat ≤ 4094) : stepWith cfg s = .next { s with pc := s.pc + 2 } := by
  have hd : decode cfg 0 = .instr (.systemCall 0) := decode_encode (i := .systemCall 0) rfl (.inr rfl)
  have hadv : advance s = { s with pc := s.pc + 2 } := by simp [advance, hsup, pcStep]
  rw [stepWith_instr hs hpc (wordAtPc_zeros hz hpc ▸ hd), execute_running rfl hs, hadv]

/-- As long as pc stays in memory, each step over zeros moves pc by 2. -/
theorem stepsTo_zeros (cfg : Config) (n : Nat) {s : State} (hs : Running s) (hsup : s.suppress = false)
    (hz : ZerosFromPc s) (hn : s.pc.toNat + 2 * n ≤ 4096) :
    ∃ t, StepsTo cfg n s t ∧ t = { s with pc := t.pc } ∧ t.pc.toNat = s.pc.toNat + 2 * n := by
  induction n generalizing s with
  | zero => exact ⟨s, rfl, rfl, rfl⟩
  | succ n ih =>
    have hpc : (s.pc + 2).toNat = s.pc.toNat + 2 := by bv_omega
    have hz' : ZerosFromPc { s with pc := s.pc + 2 } := fun a ha => hz a (by simp only [hpc] at ha; omega)
    obtain ⟨t, steps, same, hpct⟩ := ih (s := { s with pc := s.pc + 2 }) hs hsup hz' (by simp only [hpc]; omega)
    exact ⟨t, ⟨_, stepWith_zeros cfg hs hsup hz (by omega), hs, steps⟩, same, by simp only [hpc] at hpct; omega⟩

/-- Settles O51: half the distance to 4096 is the number of steps that leaves no word to fetch. -/
theorem zeroMemorySlidesToTheFetchFault : Obligations.ZeroMemorySlidesToTheFetchFault := by
  intro cfg s hs hsup hpc hz
  obtain ⟨t, steps, same, hpct⟩ := stepsTo_zeros cfg ((4096 - s.pc.toNat) / 2) hs hsup hz (by omega)
  have ht : Running t := same ▸ hs
  exact ⟨_, t, by omega, steps, same, by omega, by omega, stepWith_fetch_fault ht (by omega)⟩

/-! ### run (rules R110, R206) -/

/-- Everything a step can return: a running machine, or a fault. -/
theorem stepCall_cases (cfg : Config) (s : State) :
    (∃ u, stepWith cfg s = .next u ∧ Running u) ∨ ∃ u F, stepCall cfg s = (u, .err F) := by
  cases hf : s.fault with
  | some F => exact .inr ⟨s, F, stepCall_faulted hf⟩
  | none =>
    obtain ⟨u, hu⟩ := stepWith_next hf cfg
    cases hfu : u.fault with
    | none => exact .inl ⟨u, hu, hfu⟩
    | some F => exact .inr ⟨u, F, by rw [stepCall_next hu, resultOf_faulted hfu]⟩

theorem stepCall_running {cfg : Config} {s u : State} (h : stepWith cfg s = .next u) (hu : Running u) :
    stepCall cfg s = (u, .ok (decide (u.pc.toNat ≤ 4095))) := by
  rw [stepCall_next h, resultOf_running hu]

/-- A run goes on after a step that raises no fault. -/
theorem runFor_running {cfg : Config} {s u : State} (actions : List TimerAction) (between : List (List TimerAction))
    (h : stepWith cfg s = .next u) (hu : Running u) :
    runFor cfg (actions :: between) s = runFor cfg between (applyActions actions u) := by
  rw [runFor, stepCall_running h hu]

/-- A run ends with the step that returns a fault. -/
theorem runFor_err {cfg : Config} {s u : State} {F : FaultRecord} (actions : List TimerAction)
    (between : List (List TimerAction)) (h : stepCall cfg s = (u, .err F)) :
    runFor cfg (actions :: between) s = some (u, F) := by
  rw [runFor, h]

/-- A run that returns a fault has made steps without a fault up to the step that returns it. -/
theorem runsTo_of_runFor {cfg : Config} {between : List (List TimerAction)} {s t : State} {F : FaultRecord}
    (h : runFor cfg between s = some (t, F)) :
    ∃ n u, n < between.length ∧ RunsTo cfg (between.take n) s u ∧ stepCall cfg u = (t, .err F) := by
  induction between generalizing s with
  | nil => cases h
  | cons actions rest ih =>
    obtain ⟨v, hv, hr⟩ | ⟨v, G, hv⟩ := stepCall_cases cfg s
    · rw [runFor_running actions rest hv hr] at h
      obtain ⟨n, u, hn, hru, hu⟩ := ih h
      exact ⟨n + 1, u, Nat.succ_lt_succ hn, ⟨v, hv, hr, hru⟩, hu⟩
    · rw [runFor_err actions rest hv] at h
      cases h
      exact ⟨0, s, Nat.succ_pos _, rfl, hv⟩

/-- Steps without a fault and then one that returns a fault are a run, when its bound reaches that step. -/
theorem runFor_of_runsTo {cfg : Config} {between : List (List TimerAction)} {n : Nat} {s t u : State}
    {F : FaultRecord} (hn : n < between.length) (hr : RunsTo cfg (between.take n) s u)
    (hu : stepCall cfg u = (t, .err F)) : runFor cfg between s = some (t, F) := by
  induction between generalizing s n with
  | nil => cases hn
  | cons actions rest ih =>
    cases n with
    | zero =>
      obtain rfl : u = s := hr
      exact runFor_err actions rest hu
    | succ n =>
      obtain ⟨v, hv, hrv, hrest⟩ := hr
      rw [runFor_running actions rest hv hrv]
      exact ih (Nat.lt_of_succ_lt_succ hn) hrest

theorem undisturbed_take {n fuel : Nat} (h : n < fuel) : (undisturbed fuel).take n = undisturbed n := by
  rw [undisturbed, List.take_replicate, Nat.min_eq_left h.le, undisturbed]

/-- Settles O52; a run between whose steps the host does nothing is the special case of empty lists of actions. -/
theorem runReturnsTheFirstFault : Obligations.RunReturnsTheFirstFault := by
  have run_iff (cfg : Config) (between : List (List TimerAction)) (s t : State) (F : FaultRecord) :
      runFor cfg between s = some (t, F) ↔
        ∃ n u, n < between.length ∧ RunsTo cfg (between.take n) s u ∧ stepCall cfg u = (t, .err F) :=
    ⟨runsTo_of_runFor, fun ⟨_, _, hn, hr, hu⟩ => runFor_of_runsTo hn hr hu⟩
  refine ⟨run_iff, fun cfg fuel s t F => ?_⟩
  rw [run_iff, undisturbed_length]
  refine exists₂_congr fun n u => and_congr_right fun hn => ?_
  rw [undisturbed_take hn, runsTo_undisturbed]

end Machine

end Sys2Proof
end

section
/-! PROOF. The obligations on the control-transfer instructions (41_control.md, rules R120 to R127): what the execute
phase of each answers, what the advance makes of it, and the call that its own target's return comes back to (W1). -/

namespace Sys2Proof.Machine

/-! ### What the advance makes of a no-op, a redirect and a skip (rules R28, R31, R107) -/

/-- The net effect of a no-op. -/
theorem advance_linear {s : State} (hsup : s.suppress = false) : advance s = { s with pc := s.pc + 2 } := by
  simp [advance, hsup, pcStep]

/-- A redirect decides where the step leaves pc. -/
theorem advance_redirect (target : Word) (s : State) :
    advance (redirect target s) = { s with pc := target, suppress := false } := rfl

/-- Only pc changes in a skip. -/
theorem skipIf_eq (taken : Bool) (s : State) : skipIf taken s = { s with pc := (skipIf taken s).pc } := by
  cases taken <;> rfl

/-- The net effect of a skip, taken or not. -/
theorem advance_skipIf {s : State} (hsup : s.suppress = false) (taken : Bool) :
    advance (skipIf taken s) = { s with pc := if taken then s.pc + 4 else s.pc + 2 } := by
  cases taken with
  | false => exact advance_linear hsup
  | true =>
    rw [advance_linear (s := skipIf true s) hsup]
    simp [skipIf, pcStep, BitVec.add_assoc]

/-! ### clear-screen and system-call (rules R120, R122) -/

/-- The step of an instruction whose execute phase changes nothing. -/
theorem execute_noOp {i : Instr} {s : State} (h : exec i s = .next s) (hs : Running s) (hsup : s.suppress = false) :
    execute i s = .next { s with pc := s.pc + 2 } := by
  rw [execute_running h hs, advance_linear hsup]

/-- Settles O20: the execute phase of both is the identity. -/
theorem clearScreenAndSystemCallAreNoOps : Obligations.ClearScreenAndSystemCallAreNoOps :=
  fun _ _ => ⟨rfl, rfl, fun hs hsup => ⟨execute_noOp rfl hs hsup, execute_noOp rfl hs hsup⟩⟩

/-! ### return, jump and call (rules R121, R123, R124) -/

theorem exec_ret_pop {s : State} (above : s.sp ≠ 0) :
    exec .ret s = .next (redirect s.stack[s.sp] { s with sp := s.sp - 1 }) := by
  rw [exec, execRet, pop_ok above]
  rfl

theorem exec_ret_underflow {s : State} (empty : s.sp = 0) :
    exec .ret s = .next (raiseFault (.stackFault .underflow s.pc) s) := by
  rw [exec, execRet, pop_fault empty]
  rfl

theorem exec_call_push (nnn : Addr12) {s : State} (below : s.sp ≠ 15) :
    exec (.call nnn) s = .next
      (redirect (addressOperand nnn) { s with sp := s.sp + 1, stack := s.stack.set (s.sp + 1).val s.pc }) := by
  rw [exec, execCall, push_ok below]
  rfl

theorem exec_call_overflow (nnn : Addr12) {s : State} (full : s.sp = 15) :
    exec (.call nnn) s = .next (raiseFault (.stackFault .overflow s.pc) s) := by
  rw [exec, execCall, push_fault full]
  rfl

/-- The step of an instruction whose execute phase redirects control flow. -/
theorem execute_redirect {i : Instr} {s t : State} {target : Word} (h : exec i s = .next (redirect target t))
    (ht : Running t) : execute i s = .next { t with pc := target, suppress := false } := by
  rw [execute_running h ht, advance_redirect]

/-- Settles O21, by whether the stack is empty. -/
theorem returnPopsOrUnderflows : Obligations.ReturnPopsOrUnderflows := fun _ =>
  ⟨fun above => ⟨_, exec_ret_pop above, rfl, rfl, sp_pred_val above⟩, exec_ret_underflow⟩

/-- 4095 is past the fetch bound: the second byte of the word would be outside memory (rule R101). -/
theorem stepCall_at_4095 (cfg : Config) {s : State} (hs : Running s) (hpc : s.pc = 0xFFF) :
    (stepCall cfg s).2 = .err (.outOfBounds .fetch 4095 0xFFF) := by
  rw [stepCall_raiseFault (stepWith_fetch_fault hs (by rw [hpc]; decide)), hpc]
  rfl

/-- Settles O22: the pc that the jump leaves is nnn, so with nnn = 4095 the next step cannot fetch. -/
theorem jumpGoesToItsAddress : Obligations.JumpGoesToItsAddress := by
  intro cfg nnn s
  refine ⟨_, rfl, rfl, addressOperand_toNat nnn, fun hs => ?_⟩
  refine ⟨_, execute_redirect rfl hs, rfl, addressOperand_toNat nnn, ?_⟩
  rintro rfl
  refine stepCall_at_4095 cfg ?_ rfl
  exact hs

/-- Settles O23, by whether the stack is full. -/
theorem callPushesItsOwnAddressOrOverflows : Obligations.CallPushesItsOwnAddressOrOverflows := fun nnn s =>
  ⟨fun below => ⟨_, exec_call_push nnn below, rfl, addressOperand_toNat nnn, sp_succ_val below,
    fun k => stack_set s.stack (s.sp + 1) k s.pc⟩, exec_call_overflow nnn⟩

/-! ### A call whose target holds a return (rule R121, corner case (a); W1) -/

/-- After a call has stepped: its own address on the stack, and pc at its target. -/
def called (nnn : Addr12) (s : State) : State :=
  { s with sp := s.sp + 1, stack := s.stack.set (s.sp + 1).val s.pc, pc := addressOperand nnn, suppress := false }

theorem running_called (nnn : Addr12) {s : State} (hs : Running s) : Running (called nnn s) := hs

theorem execute_call (nnn : Addr12) {s : State} (hs : Running s) (below : s.sp ≠ 15) :
    execute (.call nnn) s = .next (called nnn s) :=
  execute_redirect (exec_call_push nnn below) hs

theorem execute_ret {s : State} (hs : Running s) (above : s.sp ≠ 0) :
    execute .ret s = .next { s with sp := s.sp - 1, pc := s.stack[s.sp], suppress := false } :=
  execute_redirect (exec_ret_pop above) hs

/-- The entry that a call pushed is its own address, so the return goes there and not past the call. -/
theorem execute_ret_called (nnn : Addr12) {s : State} (hs : Running s) (hsup : s.suppress = false)
    (below : s.sp ≠ 15) :
    execute .ret (called nnn s) = .next { s with stack := s.stack.set (s.sp + 1).val s.pc } := by
  have above : (called nnn s).sp ≠ 0 := Fin.val_ne_zero_iff.mp (by rw [called, sp_succ_val below]; omega)
  have entry : (called nnn s).stack[(called nnn s).sp] = s.pc :=
    (stack_set s.stack (s.sp + 1) (s.sp + 1) s.pc).trans (if_pos rfl)
  rw [execute_ret (running_called nnn hs) above, entry]
  simp [called, hsup]

/-- Settles O24: the step of the call, then the step of the return at its target. -/
theorem callAndReturnComeBackToTheCall : Obligations.CallAndReturnComeBackToTheCall := by
  intro cfg s nnn hs hsup below htarget hcall hret
  have hpc : (called nnn s).pc.toNat = nnn.toNat := addressOperand_toNat nnn
  have hfetch : fetch (called nnn s) = .ok (encode .ret) := by
    rw [fetch_ok (hpc.trans_le htarget), wordAtPc, hpc]
    exact congrArg Except.ok hret
  refine ⟨called nnn s, ?_, hpc, ?_⟩
  · rw [stepWith_encode hs hcall (decode_encode rfl (.inr rfl)), execute_call nnn hs below]
  · rw [stepWith_encode (running_called nnn hs) hfetch (decode_encode rfl (.inr rfl)), execute_ret_called nnn hs hsup below]

/-! ### The skips (rules R125, R126, R127) -/

section Skip

variable {i : Instr} {s : State} {taken : Bool} (h : exec i s = .next (skipIf taken s))
include h

/-- The execute phase of a skip that is taken on `P`. -/
theorem exec_skip {P : Prop} [Decidable P] (hP : taken = decide P) :
    ∃ t, exec i s = .next t ∧ t = { s with pc := t.pc } ∧ t.pc = if P then s.pc + 2 else s.pc :=
  ⟨_, h, skipIf_eq taken s, by simp [hP, pcStep]⟩

/-- The step of a skip that is taken on `P`. -/
theorem execute_skip {P : Prop} [Decidable P] (hP : taken = decide P) (hs : Running s) (hsup : s.suppress = false) :
    execute i s = .next { s with pc := if P then s.pc + 4 else s.pc + 2 } := by
  rw [execute_running h ((skipIf_fault taken s).trans hs), advance_skipIf hsup]
  simp only [hP, decide_eq_true_eq]

end Skip

/-- Settles O25. -/
theorem skipIfEqualByteSkipsOnEquality : Obligations.SkipIfEqualByteSkipsOnEquality := by
  intro x kk s
  obtain ⟨t, ht, same, hpc⟩ := exec_skip (i := .skipIfEqualByte x kk) rfl (beq_eq_decide (s.reg x) kk)
  exact ⟨t, ht, same, hpc, execute_skip rfl (beq_eq_decide (s.reg x) kk)⟩

/-- Settles O26: skip-if-not-equal-byte is taken on the negated condition, whose branches the statement swaps back. -/
theorem otherSkipsFollowTheirConditions : Obligations.OtherSkipsFollowTheirConditions := by
  intro x y kk s
  have unequal : (s.reg x != kk) = decide (s.reg x ≠ kk) := by
    rw [bne, beq_eq_decide, decide_not]
  have equal (z : RegIdx) : (s.reg x == s.reg z) = decide (s.reg x = s.reg z) := beq_eq_decide (s.reg x) (s.reg z)
  refine ⟨?_, exec_skip rfl (equal y), fun hs hsup => ⟨?_, execute_skip rfl (equal y) hs hsup, ?_⟩⟩
  · simpa only [ite_not] using exec_skip (i := .skipIfNotEqualByte x kk) rfl unequal
  · simpa only [ite_not] using execute_skip (i := .skipIfNotEqualByte x kk) rfl unequal hs hsup
  · simpa only [if_true] using execute_skip (i := .skipIfRegistersEqual x x) rfl (equal x) hs hsup

end Sys2Proof.Machine
end

section
/-! PROOF. The obligations on the register and arithmetic instructions (42_register_alu.md, rules R142 to R147 and
R149): which register each writes, with what, and that nothing else changes. -/

namespace Sys2Proof.Machine

/-! ### The instructions that write V[x] and no flag (rules R142, R144 to R147) -/

/-- The execute phase of an instruction that writes one register. -/
theorem exec_setReg {i : Instr} {s : State} {x : RegIdx} {v : Byte} (h : exec i s = .next (s.setReg x v)) :
    ∃ t, exec i s = .next t ∧ t = { s with V := t.V } ∧ ∀ k, t.reg k = if k = x then v else s.reg k :=
  ⟨_, h, setReg_eq s x v, fun k => reg_setReg s x k v⟩

/-- Settles O27. -/
theorem loadByteAndLoadRegisterWriteOnlyVx : Obligations.LoadByteAndLoadRegisterWriteOnlyVx := fun _ _ _ _ =>
  ⟨exec_setReg rfl, exec_setReg rfl⟩

/-- Settles O28: with x = y the two operands of xor cancel. -/
theorem logicalOperationsWriteOnlyVx : Obligations.LogicalOperationsWriteOnlyVx := by
  intro x y s
  obtain ⟨t, ht, same, hreg⟩ := exec_setReg (i := .xorRegister x y) (s := s) rfl
  refine ⟨exec_setReg rfl, exec_setReg rfl, t, ht, same, hreg, ?_⟩
  rintro rfl
  exact (hreg x).trans ((if_pos rfl).trans BitVec.xor_self)

/-! ### add-byte (rules R140, R143) -/

/-- The sum stays in its destination, unless the carry overwrites it there (decision D9). -/
theorem reg_writeSum8_dest {d : RegIdx} (hd : d ≠ 15) (r : Byte × Bool) (s : State) :
    (writeSum8 d r s).reg d = r.1 := by
  rw [reg_writeSum8, if_neg hd, if_pos rfl]

/-- The carry out of 8 bits is in V[15], whatever the destination. -/
theorem reg_writeSum8_add8_flag (d : RegIdx) (a b : Byte) (s : State) :
    (writeSum8 d (add8 a b) s).reg 15 = if a.toNat + b.toNat > 255 then 1 else 0 := by
  rw [reg_writeSum8, if_pos rfl, add8_carry, carryByte]
  simp only [decide_eq_true_eq]

theorem reg_writeSum8_other {d k : RegIdx} (hd : k ≠ d) (hflag : k ≠ 15) (r : Byte × Bool) (s : State) :
    (writeSum8 d r s).reg k = s.reg k := by
  rw [reg_writeSum8, if_neg hflag, if_neg hd]

/-- Settles O29. -/
theorem addByteWritesSumThenCarry : Obligations.AddByteWritesSumThenCarry := by
  intro x kk s
  refine ⟨_, rfl, writeSum8_eq x _ s, fun hx => ?_, reg_writeSum8_add8_flag x (s.reg x) kk s,
    fun k hkx hk15 => reg_writeSum8_other hkx hk15 _ s⟩
  rw [reg_writeSum8_dest hx, add8_result_toNat]

/-! ### random (rules R149, R208) -/

/-- A draw writes no register. -/
theorem reg_randomDraw (s : State) (k : RegIdx) : (randomDraw s).2.reg k = s.reg k := rfl

theorem reg_setReg_randomDraw (s : State) (x k : RegIdx) (kk : Byte) :
    ((randomDraw s).2.setReg x ((randomDraw s).1 &&& kk)).reg k =
      if k = x then Config.randomByte s.draws &&& kk else s.reg k := by
  rw [reg_setReg, reg_randomDraw, randomDraw]

/-- Settles O31: the mask 0 leaves no bit of whatever byte is drawn. -/
theorem randomMasksOneDraw : Obligations.RandomMasksOneDraw := by
  intro x kk s
  refine ⟨_, rfl, rfl, fun k => reg_setReg_randomDraw s x k kk, ?_⟩
  rintro rfl
  exact (reg_setReg_randomDraw s x x 0).trans ((if_pos rfl).trans BitVec.and_zero)

end Sys2Proof.Machine
end

section
/-! PROOF. The obligations on the address register and the timers (43_address_timer_memory.md, rules R160 to R164, and
rules R206 and R237): what each instruction writes, and that no timer rises but by write-delay, write-sound or a host
that may set it. -/

namespace Sys2Proof.Machine

/-! ### The ticks (rule R206) -/

/-- A tick as natural subtraction, which stops at zero as the tick does. -/
theorem toNat_decremented (v : Byte) : (if v = 0 then 0 else v - 1).toNat = v.toNat - 1 := by
  split
  · next h => rw [h]; rfl
  · next h => bv_omega

theorem tickDelay_delay_toNat (s : State) : (tickDelay s).delay.toNat = s.delay.toNat - 1 := toNat_decremented s.delay

theorem tickSound_sound_toNat (s : State) : (tickSound s).sound.toNat = s.sound.toNat - 1 := toNat_decremented s.sound

/-- Only an environment that may set the timers allows more than the ticks. -/
theorem tick_of_timerAllows {env : TimerEnv} {a : TimerAction} (henv : env ≠ .arbitrary)
    (allowed : timerAllows env a = true) : a = .tickDelay ∨ a = .tickSound := by
  cases env with
  | none => cases allowed
  | arbitrary => exact absurd rfl henv
  | decrement =>
    cases a with
    | tickDelay => exact .inl rfl
    | tickSound => exact .inr rfl
    | set => cases allowed

/-- No tick raises a timer. -/
theorem tick_timers_le {env : TimerEnv} {a : TimerAction} (henv : env ≠ .arbitrary) (allowed : timerAllows env a = true)
    (s : State) : (a.apply s).delay.toNat ≤ s.delay.toNat ∧ (a.apply s).sound.toNat ≤ s.sound.toNat := by
  obtain rfl | rfl := tick_of_timerAllows henv allowed
  · exact ⟨(tickDelay_delay_toNat s).trans_le (Nat.sub_le _ 1), le_rfl⟩
  · exact ⟨le_rfl, (tickSound_sound_toNat s).trans_le (Nat.sub_le _ 1)⟩

/-! ### The timers stay in the literal range (rules R162, R206) -/

/-- Neither taking a fault nor the advance writes the delay timer. -/
@[simp] theorem finish_delay (s : State) : (finish s).delay = s.delay := by
  unfold finish
  split <;> rfl

theorem literalOperand_le (x : Nibble) : (literalOperand x).toNat ≤ 15 := by
  rw [literalOperand_toNat]
  exact Nat.le_of_lt_succ x.isLt

theorem TimersLiteral.congr {s t : State} (h : TimersLiteral s) (delay : t.delay = s.delay) (sound : t.sound = s.sound) :
    TimersLiteral t := by
  rwa [TimersLiteral, delay, sound]

theorem TimersLiteral.tick {env : TimerEnv} {a : TimerAction} {s : State} (h : TimersLiteral s)
    (henv : env ≠ .arbitrary) (allowed : timerAllows env a = true) : TimersLiteral (a.apply s) := by
  obtain ⟨delay, sound⟩ := tick_timers_le henv allowed s
  exact ⟨delay.trans h.1, sound.trans h.2⟩

/-- An instruction writes a timer with a literal or not at all. -/
theorem Effect.timersLiteral {i : Instr} {s t : State} (e : Effect s i t) (h : TimersLiteral s) : TimersLiteral t := by
  cases e with
  | writeDelay x => exact ⟨literalOperand_le x, h.2⟩
  | writeSound x => exact ⟨h.1, literalOperand_le x⟩
  | _ => exact h.congr (by simp) (by simp)

theorem stepWith_timersLiteral {cfg : Config} {s t : State} (h : TimersLiteral s) (hstep : stepWith cfg s = .next t) :
    TimersLiteral t := by
  obtain ⟨-, rfl⟩ | ⟨-, -, rfl⟩ | ⟨-, i, u, -, hu, rfl⟩ := stepWith_cases (running_of_stepWith hstep) hstep
  · exact h
  · exact h
  · exact ((exec_effect hu).timersLiteral h).congr (finish_delay u) (finish_sound u)

theorem stepCall_timersLiteral (cfg : Config) {s : State} (h : TimersLiteral s) : TimersLiteral (stepCall cfg s).1 := by
  obtain e | e := stepCall_state cfg s
  · rwa [e]
  · exact stepWith_timersLiteral h e

theorem runFor_timersLiteral {cfg : Config} {between : List (List TimerAction)} {s t : State} {F : FaultRecord}
    (henv : cfg.timerEnv ≠ .arbitrary) (allowed : runAllows cfg.timerEnv between = true) (h : TimersLiteral s)
    (ran : runFor cfg between s = some (t, F)) : TimersLiteral t :=
  runFor_keeps (fun _ _ => stepWith_timersLiteral) between
    (fun actions hactions a ha _ hs => hs.tick henv (runAllows_iff.mp allowed actions hactions a ha)) h ran

/-- Settles O46, along what a call can do. -/
theorem timersStayWithinTheLiteralRange : Obligations.TimersStayWithinTheLiteralRange := by
  intro cfg w w' c r henv h hcall
  cases call_effect hcall with
  | loaded source t _ placed =>
    obtain ⟨bytes, -, rfl⟩ := load_ok placed
    exact h
  | step => exact stepCall_timersLiteral cfg h
  | run between t F allowed ran => exact runFor_timersLiteral henv allowed h ran
  | reset => exact ⟨Nat.zero_le 15, Nat.zero_le 15⟩
  | timer a allowed => exact h.tick henv allowed
  | loadFailed | snapshot | debugDump | peek => exact h

/-! ### The delay timer read back (rules R161, R162, R237) -/

/-- However many ticks, none raises the delay timer. -/
theorem applyActions_delay_le {env : TimerEnv} {ticks : List TimerAction} (henv : env ≠ .arbitrary)
    (allowed : ∀ a ∈ ticks, timerAllows env a = true) (s : State) :
    (applyActions ticks s).delay.toNat ≤ s.delay.toNat :=
  applyActions_keeps (P := fun u => u.delay.toNat ≤ s.delay.toNat)
    (fun a ha u hu => (tick_timers_le henv (allowed a ha) u).1.trans hu) le_rfl

theorem reg_setReg_self (s : State) (x : RegIdx) (v : Byte) : (s.setReg x v).reg x = v :=
  (reg_setReg s x x v).trans (if_pos rfl)

/-- Settles O47: the delay timer holds the literal until the ticks lower it. -/
theorem delayReadBackIsAtMostTheValueWritten : Obligations.DelayReadBackIsAtMostTheValueWritten := by
  intro x r s ticks allowed
  have written : (finish { s with delay := literalOperand x }).delay.toNat = x.toNat := by
    rw [finish_delay, literalOperand_toNat]
  refine ⟨{ s with delay := literalOperand x }, _, rfl, rfl, ?_, ?_⟩
  · rw [reg_setReg_self, ← written]
    exact applyActions_delay_le (env := .decrement) (by decide) allowed _
  · rintro rfl
    rw [reg_setReg_self]
    exact written

/-! ### Single instructions (rules R160 to R164) -/

/-- Settles O32. -/
theorem loadImmediateSetsI : Obligations.LoadImmediateSetsI := by
  intro nnn s
  have value : (addressOperand nnn).toNat = nnn.toNat := addressOperand_toNat nnn
  exact ⟨_, rfl, rfl, value, value.trans_le (Nat.le_of_lt_succ nnn.isLt)⟩

/-- Settles O33. -/
theorem readDelayCopiesDelayToVx : Obligations.ReadDelayCopiesDelayToVx := fun _ _ => exec_setReg rfl

/-- Settles O34. -/
theorem timerWritesStoreTheLiteral : Obligations.TimerWritesStoreTheLiteral := fun x _ =>
  ⟨⟨_, rfl, rfl, literalOperand_toNat x⟩, ⟨_, rfl, rfl, literalOperand_toNat x⟩⟩

/-- The carry out of 16 bits is in V[15]. -/
theorem reg_writeSum16_add16_flag (a : Word) (b : Byte) (s : State) :
    (writeSum16 (add16 a b) s).reg 15 = if a.toNat + b.toNat > 65535 then 1 else 0 := by
  rw [reg_writeSum16, if_pos rfl, add16_carry, carryByte]
  simp only [decide_eq_true_eq]

/-- Settles O35: the old V[x] is the addend, also for x = 15. -/
theorem addToAddressSetsIAndSixteenBitCarry : Obligations.AddToAddressSetsIAndSixteenBitCarry := fun x s =>
  ⟨_, rfl, writeSum16_eq _ s, add16_result_toNat s.I (s.reg x), reg_writeSum16_add16_flag s.I (s.reg x) s,
    fun k hk => (reg_writeSum16 k _ s).trans (if_neg hk)⟩

end Sys2Proof.Machine
end

section
/-! PROOF. The obligations on the timers' host and on several machines (60_exceptions.md, rules R206, R213): what a tick
writes, and what a call on one of several machines can do. -/

namespace Sys2Proof.Machine

/-! ### Ticks (rule R206) -/

theorem timerAllows_none (a : TimerAction) : timerAllows .none a = false := rfl

/-- Settles O48: what a tick leaves in its own timer is the lemma on that timer, and the environment `none` is the first
row of the table of allowed actions. -/
theorem ticksDecrementAndStopAtZero : Obligations.TicksDecrementAndStopAtZero := fun s =>
  ⟨⟨_, rfl, rfl, tickDelay_delay_toNat s⟩, ⟨_, rfl, rfl, tickSound_sound_toNat s⟩, timerAllows_none⟩

/-! ### Several machines (rule R213) -/

/-- A call that is answered is a call on the `k`-th machine, under its own configuration, and the machine it leaves takes
that place in the list. -/
theorem callAt_some {k : Nat} {c : HostCall} {ms ms' : List (Config × Session)} {r : Reply}
    (h : callAt k c ms = some (ms', r)) :
    ∃ cfg w w', ms[k]? = some (cfg, w) ∧ w.call cfg c = some (w', r) ∧ ms' = ms.set k (cfg, w') := by
  unfold callAt at h
  split at h
  next => cases h
  next cfg w found =>
    obtain ⟨⟨w', r'⟩, answered, e⟩ := Option.map_eq_some_iff.mp h
    cases e
    exact ⟨cfg, w, w', found, answered, rfl⟩

/-- Settles O59: the call replaces one entry of the list, and replacing an entry keeps the length and every other entry. -/
theorem callOnOneInstanceLeavesTheOthers : Obligations.CallOnOneInstanceLeavesTheOthers := by
  intro k c ms ms' r h
  obtain ⟨cfg, w, w', -, -, rfl⟩ := callAt_some h
  exact ⟨List.length_set, fun j hj => List.getElem?_set_ne hj.symm⟩

end Sys2Proof.Machine
end

section
/-! PROOF. The obligation on the host's reset (70_reset_and_hazards.md, rules R38, R231): what the state after reset holds
at each index of a vector and at each address, and that a reset of any state gives these values. -/

namespace Sys2Proof.Machine

/-- Every register is zero after reset (rule R38). -/
theorem reset_reg (k : RegIdx) : State.reset.reg k = 0 := Vector.getElem_replicate k.isLt

/-- Every stack entry is zero after reset (rule R38). -/
theorem reset_stack (k : Fin 16) : State.reset.stack[k] = 0 := Vector.getElem_replicate k.isLt

/-- A reset of any state leaves the registers of the state after reset. -/
theorem hostReset_reg (s : State) (k : RegIdx) : (hostReset s).reg k = State.reset.reg k := rfl

/-- A reset of any state leaves the stack of the state after reset. -/
theorem hostReset_stack (s : State) : (hostReset s).stack = State.reset.stack := restart_stack s

/-- A reset of any state leaves every address zero to an observer (rules R212, R231). -/
theorem peek_hostReset {a : Nat} (ha : a ≤ 4095) (s : State) : peek a (hostReset s) = some 0 := by
  rw [peek_eq ha, hostReset, restart_mem, reset_mem_read]

/-- Settles O53: reset overwrites every element but `draws`, so the scalar elements are those of `State.reset` by
definition, and the registers, the stack and memory are by the lemmas above, for each index. -/
theorem hostResetRestoresEveryElement : Obligations.HostResetRestoresEveryElement := by
  intro s
  refine ⟨hostReset s, rfl, rfl, rfl, rfl, rfl, rfl, rfl, rfl, ?registers, ?stack, ?memory⟩
  case registers => exact fun k => (hostReset_reg s k).trans (reset_reg k)
  case stack => exact fun k => by rw [hostReset_stack, reset_stack]
  case memory => exact fun a ha => peek_hostReset ha s

end Sys2Proof.Machine
end
